-- ==== Sys2Proof/Word.lean ====
section
/-! DEFINITION. The widths of the block: bytes, lengths and port words (00_scope.md R5, R6). -/

namespace Sys2Proof

/-- A command word or a response word, 32 bits (R5, R60). -/
abbrev Word := BitVec 32

/-- An entry of S or KEY, a cursor, an index into S or KEY, a data byte (R5): 8 bits, unsigned.
`+` on two of them is addition modulo 256 (R7), `^^^` is the XOR of R7. -/
abbrev Byte := BitVec 8

/-- A key length as KEYLEN holds it: 9 bits, 0 to 511 (R5, R26). -/
abbrev KeyLength := BitVec 9

end Sys2Proof
end

