-- ==== Sys2Proof/Config.lean ====
section
/-! DEFINITION. What a build of the block fixes (00_scope.md R5): P_INSPECT, and the three OPEN parameters no rule depends on. -/

namespace Sys2Proof

/-- The implementation parameters of R5 that a build or a platform chooses. -/
structure Config where
  /-- P_INSPECT: SRD and IJRD are present (R5, R113). -/
  pInspect : Bool
  /-- T_CMD: the latency of a command, by its word (R148: OPEN; no rule depends on it). -/
  tCmd : Word → Nat
  /-- P_BASE: the platform's address of the command port (R46: OPEN). -/
  pBase : Nat
  /-- The bus lane in which a bridge carries byte k of a word (R42: OPEN, outside the block). -/
  bridgeLane : Fin 4 → Fin 4

/-- T_CMD of the chip at hand: nothing is known of it (log 8). -/
opaque Config.openTCmd : Word → Nat

/-- P_BASE of the platform at hand: nothing is known of it (log 8). -/
opaque Config.openPBase : Nat

/-- The byte order of the platform's bus bridge: nothing is known of it (log 8). -/
opaque Config.openBridgeLane : Fin 4 → Fin 4

/-- The build of this spec: P_INSPECT = 1 (R5, R113, D6; log 6), everything OPEN left open. -/
def Config.cmdV1 : Config where
  pInspect := true
  tCmd := Config.openTCmd
  pBase := Config.openPBase
  bridgeLane := Config.openBridgeLane

/-- A build without the inspection commands (R113), beside which claims about P_INSPECT = 0 are read. -/
def Config.secure : Config := { Config.cmdV1 with pInspect := false }

end Sys2Proof
end

