-- ==== Sys2Proof/Syntax.lean ====
section
/-! DEFINITION. The commands of CMD v1: one constructor per row of spec/opcode_table.json (30_encoding.md R65). -/

namespace Sys2Proof

/-- A command with its operands assembled (R64, R65). `nextByte` is no command (R66), and a word that
spells none of these is ILLEGAL (R67), which is the decoder's answer and not a command. -/
inductive Instr where
  /-- NOP, OP 0x0 (R80). -/
  | nop
  /-- KEYWR idx, data, OP 0x1 (R81). -/
  | keywr (idx data : Byte)
  /-- KEYLEN len, OP 0x2 (R82). -/
  | keylen (len : KeyLength)
  /-- INIT, OP 0x3 (R90). -/
  | init
  /-- APPLY data, OP 0x4 (R101). -/
  | apply (data : Byte)
  /-- SRD idx, OP 0x5 (R110); only with P_INSPECT = 1. -/
  | srd (idx : Byte)
  /-- IJRD, OP 0x6 (R111); only with P_INSPECT = 1. -/
  | ijrd
  /-- RDSTAT, OP 0x7 (R112). -/
  | rdstat
  deriving DecidableEq, Repr

end Sys2Proof
end

