-- ==== Sys2Proof/WellFormed.lean ====
section
/-! DEFINITION. Which commands a build has (43_inspection.md R113), the assembly lines of 30_encoding.md R71 and R72, and which of those spell words. -/

namespace Sys2Proof

/-- The build has this command: all of R65, SRD and IJRD only with P_INSPECT = 1 (R113).
Operand ranges need no check here: an operand's type has exactly the values of its field (R64). -/
def Instr.wellFormed (c : Config) : Instr → Bool
  | .nop | .keywr _ _ | .keylen _ | .init | .apply _ | .rdstat => true
  | .srd _ | .ijrd => c.pInspect

/-- A line of the spec's assembly: a mnemonic of R71 or a pseudo-instruction of R72, its numbers as written. -/
inductive Asm where
  | nop
  | keywr (idx data : Nat)
  | keylen (len : Nat)
  | init
  | apply (data : Nat)
  | srd (idx : Nat)
  | ijrd
  | rdstat
  /-- LOADKEY k0, …, k(L-1). -/
  | loadkey (key : List Nat)
  /-- INITIALIZE k0, …, k(L-1): the document's initialize(key). -/
  | initkey (key : List Nat)
  /-- APPLYBUF b0, …, b(m-1): the document's apply(state, input). -/
  | applybuf (buf : List Nat)
  /-- KSTREAM: the next keystream byte. -/
  | kstream
  deriving DecidableEq, Repr

/-- A number that fits a byte operand (R71). -/
def byteOperand (n : Nat) : Bool := n ≤ 255

/-- The line spells words: every operand is in range (R71), and LOADKEY (also inside INITIALIZE) has at
most 256 bytes, "because KEY has 256 entries" (R72). -/
def Asm.wellFormed : Asm → Bool
  | .nop | .init | .ijrd | .rdstat | .kstream => true
  | .keywr idx data => byteOperand idx && byteOperand data
  | .keylen len => len ≤ 511
  | .apply data => byteOperand data
  | .srd idx => byteOperand idx
  | .loadkey key | .initkey key => key.length ≤ 256 && key.all byteOperand
  | .applybuf buf => buf.all byteOperand

end Sys2Proof
end

