-- ==== Sys2Proof/Decode.lean ====
section
/-! DEFINITION. The command word's fields (30_encoding.md R61, R64), the strict decoder (R67, R70), the encoder (R65), the assembler (R71, R72), and the reading of a row of spec/opcode_table.json. -/

namespace Sys2Proof

/-! ## Fields of a command word (R61) -/

/-- OP, bits 31:28. -/
def opField (cw : Word) : BitVec 4 := cw.extractLsb' 28 4

/-- RSV_A, bits 27:25. -/
def rsvAField (cw : Word) : BitVec 3 := cw.extractLsb' 25 3

/-- ARG, bits 24:16: the 9-bit length operand of KEYLEN (R64). -/
def argField (cw : Word) : KeyLength := cw.extractLsb' 16 9

/-- ARG[8], bit 24, which an index leaves 0 (R61). -/
def argTopField (cw : Word) : BitVec 1 := cw.extractLsb' 24 1

/-- ARG[7:0], bits 23:16: the index operand of KEYWR and SRD (R64). -/
def idxField (cw : Word) : Byte := cw.extractLsb' 16 8

/-- RSV_B, bits 15:8. -/
def rsvBField (cw : Word) : Byte := cw.extractLsb' 8 8

/-- DATA, bits 7:0: the byte operand of KEYWR and APPLY (R64). -/
def dataField (cw : Word) : Byte := cw.extractLsb' 0 8

/-! ## The decoder (R70) -/

/-- Why a word spells no command (R67). The block answers CODE 3 to each alike (R123): the names are
the model's, no response carries them. -/
inductive Illegal where
  /-- RSV_A or RSV_B is not 0. -/
  | reservedField
  /-- A bit of ARG or DATA is 1 that the opcode's row requires to be 0. -/
  | unusedField
  /-- OP is 0x8 to 0xF. -/
  | unassignedOpcode
  /-- OP is 0x5 or 0x6 in a build with P_INSPECT = 0 (R113). -/
  | inspectionAbsent
  deriving DecidableEq, Repr

/-- What the decoder makes of a word: exactly one command, or ILLEGAL (R67). -/
inductive Decoded where
  | command (i : Instr)
  | illegal (why : Illegal)
  deriving DecidableEq, Repr

/-- A command if the bits its row requires to be 0 are 0, ILLEGAL if not. -/
def commandIf (unusedClear : Bool) (i : Instr) : Decoded :=
  if unusedClear then .command i else .illegal .unusedField

/-- A command of R113: present only with P_INSPECT = 1. -/
def inspectionIf (c : Config) (unusedClear : Bool) (i : Instr) : Decoded :=
  if c.pInspect then commandIf unusedClear i else .illegal .inspectionAbsent

/-- The decoder of R70: total on all 2^32 words, strict (R67), and blind to every state. -/
def decode (c : Config) (cw : Word) : Decoded :=
  if rsvAField cw ≠ 0 ∨ rsvBField cw ≠ 0 then .illegal .reservedField
  else match (opField cw).toNat with
  | 0 => commandIf (argField cw == 0 && dataField cw == 0) .nop
  | 1 => commandIf (argTopField cw == 0) (.keywr (idxField cw) (dataField cw))
  | 2 => commandIf (dataField cw == 0) (.keylen (argField cw))
  | 3 => commandIf (argField cw == 0 && dataField cw == 0) .init
  | 4 => commandIf (argField cw == 0) (.apply (dataField cw))
  | 5 => inspectionIf c (argTopField cw == 0 && dataField cw == 0) (.srd (idxField cw))
  | 6 => inspectionIf c (argField cw == 0 && dataField cw == 0) .ijrd
  | 7 => commandIf (argField cw == 0 && dataField cw == 0) .rdstat
  | _ => .illegal .unassignedOpcode

/-! ## The encoder (R61, R65) -/

/-- A command word from its three used fields, RSV_A and RSV_B being 0 (R61). -/
def commandWord (op : BitVec 4) (arg : KeyLength) (data : Byte) : Word :=
  op ++ 0#3 ++ arg ++ 0#8 ++ data

/-- An index as ARG carries it: ARG[8] = 0, ARG[7:0] the index (R61). -/
def indexArg (idx : Byte) : KeyLength := 0#1 ++ idx

/-- The word of a command, by the patterns of R65. -/
def encode : Instr → Word
  | .nop => commandWord 0x0 0 0
  | .keywr idx data => commandWord 0x1 (indexArg idx) data
  | .keylen len => commandWord 0x2 len 0
  | .init => commandWord 0x3 0 0
  | .apply data => commandWord 0x4 0 data
  | .srd idx => commandWord 0x5 (indexArg idx) 0
  | .ijrd => commandWord 0x6 0 0
  | .rdstat => commandWord 0x7 0 0

/-! ## The assembler (R71, R72) -/

/-- KEYWR m, k0; KEYWR m+1, k1; …: the writes of LOADKEY from index m on (R72). -/
def keywrsFrom (m : Nat) : List Nat → List Instr
  | [] => []
  | k :: ks => .keywr (BitVec.ofNat 8 m) (BitVec.ofNat 8 k) :: keywrsFrom (m + 1) ks

/-- LOADKEY's expansion: the writes, then KEYLEN L (R72). -/
def loadKeyCommands (key : List Nat) : List Instr :=
  keywrsFrom 0 key ++ [.keylen (BitVec.ofNat 9 key.length)]

/-- The commands a line stands for (R71), a pseudo-instruction expanded (R72). -/
def Asm.commands : Asm → List Instr
  | .nop => [.nop]
  | .keywr idx data => [.keywr (BitVec.ofNat 8 idx) (BitVec.ofNat 8 data)]
  | .keylen len => [.keylen (BitVec.ofNat 9 len)]
  | .init => [.init]
  | .apply data => [.apply (BitVec.ofNat 8 data)]
  | .srd idx => [.srd (BitVec.ofNat 8 idx)]
  | .ijrd => [.ijrd]
  | .rdstat => [.rdstat]
  | .loadkey key => loadKeyCommands key
  | .initkey key => loadKeyCommands key ++ [.init]
  | .applybuf buf => buf.map fun b => .apply (BitVec.ofNat 8 b)
  | .kstream => [.apply 0]

/-- The words a line spells; none for an assembly error (R71). -/
def assemble (a : Asm) : Option (List Word) :=
  if a.wellFormed then some (a.commands.map encode) else none

/-! ## A row of the opcode table -/

/-- The word of a row from its number, bit 0 the least significant (R6); its bits above nbits are 0. -/
def tableWord (nbits w : Nat) : Word := BitVec.ofNat 32 (w % 2 ^ nbits)

/-- The instruction the decoder of this spec's build reads from the word numbered w. The table gives every row
32 bits (R69), and a word moves whole, so there are no bytes to order (R42). -/
def decodeTableWord (nbits w : Nat) : Option Instr :=
  if nbits ≤ 32 then
    match decode Config.cmdV1 (tableWord nbits w) with
    | .command i => some i
    | .illegal _ => none
  else none

end Sys2Proof
end

