-- ==== Sys2Proof/Machine/State.lean ====
section
/-! DEFINITION. The block's state (10_state.md R20), the two lists of its port, the reasons a step can stop, and the state after reset (R34, R140). -/

namespace Sys2Proof.Machine

/-- The permutation array S: exactly 256 entries of one byte, each of which always holds a byte (R21; log 10). -/
abbrev SArray := Vector Byte 256

/-- The key buffer KEY as (index, byte) cells, strictly rising; a byte that is not listed has not been
written since reset (R25, R32; log 4, log 10). -/
abbrev Memory := List Host.Cell

/-- What the host does to the block (R60): the model's alphabet of inputs. -/
inductive HostInput where
  /-- A command word is presented on the port (R60). -/
  | command (cw : Word)
  /-- Reset is asserted while no command is executing (R140). -/
  | reset
  /-- Reset is asserted while the block is executing this command (R141). -/
  | resetDuring (cw : Word)
  deriving DecidableEq, Repr

/-- The completion codes of R63. -/
inductive Code where
  | ok
  | invalidKeyLength
  | notReady
  | illegal
  deriving DecidableEq, Repr

/-- Everything R20 gives the block, under the spec's own names, and the port seen from the block's side. -/
structure State where
  /-- The permutation array S[0..255] (R21). -/
  S : SArray
  /-- The cursor i (R23). -/
  i : Byte
  /-- The cursor j (R24). -/
  j : Byte
  /-- The key buffer KEY[0..255] (R25). -/
  KEY : Memory
  /-- The key length register (R26). -/
  KEYLEN : KeyLength
  /-- A cipher state exists (R27). -/
  READY : Bool
  /-- What the host has done and the port has not yet taken, oldest first (R60, R144): the model's own field (log 1). -/
  inputs : List HostInput
  /-- The response words produced, oldest first (R48, R60): the model's own field, which no command reads (log 1). -/
  responses : List Word
  deriving DecidableEq, Repr

/-- Why the machine stops. -/
inductive Fault where
  /-- KeyUnwritten (R136): raised by INIT, with a legal KEYLEN, when some KEY[m] with m < KEYLEN has not been
  written since reset. Safe: a chip would go on with whatever the RAM held, the model proves nothing of such a run. -/
  | keyUnwritten
  deriving DecidableEq, Repr

/-- Why an instruction is refused. -/
inductive Refusal where
  /-- An arm of exec that has no meaning yet, by its mnemonic. No arm is in that case, so nothing raises it. Safe. -/
  | notModelled (mnemonic : String)
  deriving DecidableEq, Repr

/-- The machine after reset (R34, R140): READY = 0, KEYLEN = 0, every KEY byte unwritten; the host has done nothing
yet (R142). DESIGN CHOICE: the spec leaves S, i and j unspecified (and unobservable), the model has them 0 (log 3);
unsafe only for a claim that reads them, and no command can while READY = 0. -/
def State.reset : State where
  S := Vector.replicate 256 0
  i := 0
  j := 0
  KEY := []
  KEYLEN := 0
  READY := false
  inputs := []
  responses := []

end Sys2Proof.Machine
end

