-- ==== Sys2Proof/Machine/Flags.lean ====
section
/-! DEFINITION. The completion code and the READY bit as a response word carries them (30_encoding.md R62, R63). -/

namespace Sys2Proof.Machine

/-- The number of a completion code (R63). -/
def codeBits : Code → BitVec 2
  | .ok => 0
  | .invalidKeyLength => 1
  | .notReady => 2
  | .illegal => 3

/-- The response word of R62: `zext_32(CODE ++ READY ++ D1 ++ D0)`. -/
def responseWord (code : Code) (ready : Bool) (d0 d1 : Byte) : Word :=
  (codeBits code ++ BitVec.ofBool ready ++ d1 ++ d0).setWidth 32

end Sys2Proof.Machine
end

