-- ==== Sys2Proof/Machine/Operands.lean ====
section
/-! DEFINITION. What commands read besides their word's fields: the key length test of 41_ksa_init.md R92, the key byte of a KSA iteration (R91), the halves of KEYLEN (43_inspection.md R112). -/

namespace Sys2Proof.Machine

/-- What a KEY byte reads as that no cell lists: no value (R32, R136; log 4). -/
def unlistedKey : Option Byte := none

/-- Read one byte of KEY; none where nothing has written it since reset. -/
def Memory.read : Memory → Nat → Option Byte
  | [], _ => unlistedKey
  | (b, v) :: rest, a => if a = b then some v else Memory.read rest a

/-- The key length is legal: 5 to 256 (R92). -/
def legalKeyLength (len : KeyLength) : Bool := 5 ≤ len.toNat && len.toNat ≤ 256

/-- Every KEY[m] with m < L has been written since reset (the loop over m of R90). -/
def keyWritten (key : Memory) (L : Nat) : Bool := (List.range L).all fun m => (key.read m).isSome

/-- KEY[n mod L], the key byte of KSA iteration n (R91). INIT asks for it only after `keyWritten key L`, so the
byte named for an unwritten entry is never used. -/
def ksaKeyByte (key : Memory) (L n : Nat) : Byte := (key.read (n % L)).getD 0

/-- KEYLEN[7:0], D0 of RDSTAT (R112). -/
def keylenLow (len : KeyLength) : Byte := len.extractLsb' 0 8

/-- zext_8(KEYLEN[8]), D1 of RDSTAT (R112). -/
def keylenHigh (len : KeyLength) : Byte := (len.extractLsb' 8 1).setWidth 8

end Sys2Proof.Machine
end

