-- ==== Sys2Proof/Machine/Ops.lean ====
section
/-! DEFINITION. The primitives of 00_scope.md R8 over S, KEY and the registers, the end of a command (respond, raise), and the reset event (70_reset_and_hazards.md R140). -/

namespace Sys2Proof.Machine

/-! ## KEY -/

/-- Write one byte of KEY, keeping the cells strictly rising; a later write to the same index replaces (R81). -/
def Memory.write : Memory → Nat → Byte → Memory
  | [], a, v => [(a, v)]
  | (b, w) :: rest, a, v =>
    if a < b then (a, v) :: (b, w) :: rest
    else if a = b then (a, v) :: rest
    else (b, w) :: Memory.write rest a v

/-- The canonical form of KEY: indices strictly rising, every one inside 0 to 255. No listed cell equals what an
unlisted index reads as, since that is no value at all. -/
abbrev Memory.wf (key : Memory) : Prop :=
  (key.map Prod.fst).Pairwise (· < ·) ∧ ∀ cell ∈ key, cell.1 < 256

/-- KEY[a]: the byte, or none where nothing has written it since reset (R32). -/
def State.keyAt (s : State) (a : Byte) : Option Byte := s.KEY.read a.toNat

/-- KEY[a] <- v (R8). -/
def State.writeKey (s : State) (a v : Byte) : State := { s with KEY := s.KEY.write a.toNat v }

/-! ## S -/

/-- S[a] (R8). -/
def sRead (S : SArray) (a : Byte) : Byte := S.get a.toFin

/-- S[a] <- v (R8). -/
def sWrite (S : SArray) (a v : Byte) : SArray := S.set a.toNat v a.isLt

/-- swap(a, b) of R8: `t <- S[a]; S[a] <- S[b]; S[b] <- t`. -/
def sSwap (S : SArray) (a b : Byte) : SArray :=
  let t := sRead S a
  sWrite (sWrite S a (sRead S b)) b t

/-- S[a] of a state. -/
def State.sAt (s : State) (a : Byte) : Byte := sRead s.S a

/-! ## Registers -/

/-- KEYLEN <- len (R8, R82). -/
def State.writeKeylen (s : State) (len : KeyLength) : State := { s with KEYLEN := len }

/-- S, i and j take the values given: the cipher state of R20. -/
def State.withCipher (s : State) (S : SArray) (i j : Byte) : State := { s with S := S, i := i, j := j }

/-- READY <- 1, which only a successful INIT does (R27). -/
def State.setReady (s : State) : State := { s with READY := true }

/-! ## The end of a command -/

/-- respond(code, d0, d1) of R8: the command ends with the response word of R62, READY as it stands now. -/
def State.respond (s : State) (code : Code) (d0 d1 : Byte) : State :=
  { s with responses := s.responses ++ [responseWord code s.READY d0 d1] }

/-- raise E of R8: the command ends with code E and d0 = d1 = 0, and changes no state (R124). No trap is taken and
there is nothing to return from (R120, R127): this is the block's whole error mechanism. -/
def State.raise (s : State) (code : Code) : State := s.respond code 0 0

/-! ## Reset -/

/-- The reset event (R140): every piece of the block's state as `State.reset` has it; a command in progress and its
response are gone. What the host has not yet had taken, and the responses it already has, stay (log 9). -/
def State.applyReset (s : State) : State :=
  { State.reset with inputs := s.inputs, responses := s.responses }

end Sys2Proof.Machine
end

