-- ==== Sys2Proof/Machine/Inspection.lean ====
section
/-! DEFINITION. The meanings of SRD, IJRD and RDSTAT (43_inspection.md R110 to R112). None changes any state; the decoder leaves SRD and IJRD out of a build with P_INSPECT = 0 (R113). -/

namespace Sys2Proof.Machine

/-- SRD idx (R110): D0 = S[idx]; NOT_READY without a cipher state. -/
def execSrd (idx : Byte) (s : State) : Host.Outcome State Fault Refusal :=
  if s.READY then .next (s.respond .ok (s.sAt idx) 0) else .next (s.raise .notReady)

/-- IJRD (R111): D0 = i, D1 = j; NOT_READY without a cipher state. -/
def execIjrd (s : State) : Host.Outcome State Fault Refusal :=
  if s.READY then .next (s.respond .ok s.i s.j) else .next (s.raise .notReady)

/-- RDSTAT (R112): D0 = KEYLEN[7:0], D1 = zext_8(KEYLEN[8]), at either value of READY. -/
def execRdstat (s : State) : Host.Outcome State Fault Refusal :=
  .next (s.respond .ok (keylenLow s.KEYLEN) (keylenHigh s.KEYLEN))

end Sys2Proof.Machine
end

