-- ==== Sys2Proof/Machine/KeyLoading.lean ====
section
/-! DEFINITION. The meanings of NOP, KEYWR and KEYLEN (40_key_loading.md R80 to R82). -/

namespace Sys2Proof.Machine

/-- NOP (R80): responds OK at either value of READY and writes nothing. -/
def execNop (s : State) : Host.Outcome State Fault Refusal := .next (s.respond .ok 0 0)

/-- KEYWR idx, data (R81): writes KEY[idx] only. -/
def execKeywr (idx data : Byte) (s : State) : Host.Outcome State Fault Refusal :=
  .next ((s.writeKey idx data).respond .ok 0 0)

/-- KEYLEN len (R82): writes KEYLEN only; every value of len is accepted, INIT checks it. -/
def execKeylen (len : KeyLength) (s : State) : Host.Outcome State Fault Refusal :=
  .next ((s.writeKeylen len).respond .ok 0 0)

end Sys2Proof.Machine
end

