-- ==== Sys2Proof/Machine/Ksa.lean ====
section
/-! DEFINITION. The KSA initializer and the meaning of INIT (41_ksa_init.md R90 to R94). -/

namespace Sys2Proof.Machine

/-- The indices of S in order, 0 to 255 (R21, R33): the values n takes in both loops of R91, always 256 of them
(R149). Read off S, whose size is 256, so that nothing about an unknown S unfolds a loop. -/
def sIndices (S : SArray) : List Nat := List.range S.toArray.size

/-- Step 1 of R91: `for n in 0 .. 255: S[n] <- n`. -/
def ksaIdentity (S : SArray) : SArray :=
  (sIndices S).foldl (fun S n => sWrite S (BitVec.ofNat 8 n) (BitVec.ofNat 8 n)) S

/-- One iteration of step 3 of R91, on the array and the accumulator j:
`j <- (j + S[n] + KEY[n mod L]) mod 256; swap(n, j)`. -/
def ksaRound (key : Memory) (L : Nat) (c : SArray × Byte) (n : Nat) : SArray × Byte :=
  let j := c.2 + sRead c.1 (BitVec.ofNat 8 n) + ksaKeyByte key L n
  (sSwap c.1 (BitVec.ofNat 8 n) j, j)

/-- KSA(L) of R91: the array it leaves, and the final accumulator j, which INIT clears (R93). -/
def ksa (key : Memory) (L : Nat) (S : SArray) : SArray × Byte :=
  (sIndices S).foldl (ksaRound key L) (ksaIdentity S, 0)

/-- INIT (R90): the length check before anything is read (R92, R125), then the model fault KeyUnwritten (R136),
then the KSA, the cursor reset (R93), READY <- 1 and the response. -/
def execInit (s : State) : Host.Outcome State Fault Refusal :=
  if legalKeyLength s.KEYLEN then
    if keyWritten s.KEY s.KEYLEN.toNat then
      .next (((s.withCipher (ksa s.KEY s.KEYLEN.toNat s.S).1 0 0).setReady).respond .ok 0 0)
    else .fault .keyUnwritten
  else .next (s.raise .invalidKeyLength)

end Sys2Proof.Machine
end

