-- ==== Sys2Proof/Machine/Prga.lean ====
section
/-! DEFINITION. The PRGA step nextByte and the meaning of APPLY (42_prga_apply.md R100, R101). -/

namespace Sys2Proof.Machine

/-- nextByte of R100: the state after the step, and the keystream byte, read from the swapped array. -/
def nextByte (s : State) : State × Byte :=
  let i := s.i + 1
  let j := s.j + sRead s.S i
  let S := sSwap s.S i j
  (s.withCipher S i j, sRead S (sRead S i + sRead S j))

/-- APPLY data (R101): NOT_READY without a cipher state (R122), else the data byte XOR the next keystream byte. -/
def execApply (data : Byte) (s : State) : Host.Outcome State Fault Refusal :=
  if s.READY then .next ((nextByte s).1.respond .ok (data ^^^ (nextByte s).2) 0)
  else .next (s.raise .notReady)

end Sys2Proof.Machine
end

