-- ==== Sys2Proof/Machine/Dispatch.lean ====
section
/-! DEFINITION. exec: one arm per command, each one call of its meaning. -/

namespace Sys2Proof.Machine

def exec (i : Instr) (s : State) : Host.Outcome State Fault Refusal :=
  match i with
  | .nop => Sys2Proof.Machine.execNop s
  | .keywr idx data => Sys2Proof.Machine.execKeywr idx data s
  | .keylen len => Sys2Proof.Machine.execKeylen len s
  | .init => Sys2Proof.Machine.execInit s
  | .apply data => Sys2Proof.Machine.execApply data s
  | .srd idx => Sys2Proof.Machine.execSrd idx s
  | .ijrd => Sys2Proof.Machine.execIjrd s
  | .rdstat => Sys2Proof.Machine.execRdstat s

end Sys2Proof.Machine
end

