-- ==== Sys2Proof/Machine/Port.lean ====
section
/-! DEFINITION. The command port (30_encoding.md R60): taking the next host input, running a command word, and the reset input, for any build. -/

namespace Sys2Proof.Machine

/-- Run one command word as one indivisible step (R44, R60): decode before any state is read (R70), then the
command's meaning; a word that spells no command ends with ILLEGAL and changes no state (R123). -/
def runWord (c : Config) (cw : Word) (s : State) : Host.Outcome State Fault Refusal :=
  match decode c cw with
  | .command i => exec i s
  | .illegal _ => .next (s.raise .illegal)

/-- One step of a build: the oldest host input is taken (R48) and acted on. A command word is run whole and its
response produced, so the next one waits for that (R60, R144). Reset acts as R140 says; during a command it does the
same and the command has no response (R141; log 12, log 15). With no input the block is idle and keeps its state (R134; log 2). -/
def stepWith (c : Config) (s : State) : Host.Outcome State Fault Refusal :=
  match s.inputs with
  | [] => .next s
  | .command cw :: rest => runWord c cw { s with inputs := rest }
  | .reset :: rest => .next (State.applyReset { s with inputs := rest })
  | .resetDuring _ :: rest => .next (State.applyReset { s with inputs := rest })

/-- The host presents a command word; it is the next thing the port takes. -/
def presentFirst (cw : Word) (s : State) : State := { s with inputs := .command cw :: s.inputs }

end Sys2Proof.Machine
end

