-- ==== Sys2Proof/Machine/Step.lean ====
section
/-! DEFINITION. The step of this spec's build (P_INSPECT = 1), and the placing of one word for it. -/

namespace Sys2Proof.Machine

/-- One step of the block of this spec (R5: P_INSPECT = 1; log 6). -/
def step (s : State) : Host.Outcome State Fault Refusal := stepWith Config.cmdV1 s

/-- The state in which the host has presented this word ahead of everything else: the block fetches nothing (R28,
R51), it takes words from the port, so this is where step finds its next instruction (log 11). -/
def State.withFetchWord (s : State) (nbits w : Nat) : State := presentFirst (tableWord nbits w) s

end Sys2Proof.Machine
end

