-- ==== Sys2Proof/Machine/Assembly.lean ====
section
/-! DEFINITION. The text of an assembly line (30_encoding.md R71, R72): a mnemonic, then operands separated by commas, each number decimal or 0x hexadecimal. -/

namespace Sys2Proof.Machine

/-- The value of a digit of this base, in either case of a letter. -/
def digitValue (base : Nat) (ch : Char) : Option Nat :=
  let v :=
    if '0' ≤ ch ∧ ch ≤ '9' then ch.toNat - '0'.toNat
    else if 'a' ≤ ch ∧ ch ≤ 'f' then ch.toNat - 'a'.toNat + 10
    else if 'A' ≤ ch ∧ ch ≤ 'F' then ch.toNat - 'A'.toNat + 10
    else base
  if v < base then some v else none

/-- The number these digits spell after the digits that made acc. -/
def digitsValue (base acc : Nat) : List Char → Option Nat
  | [] => some acc
  | ch :: rest =>
    match digitValue base ch with
    | some v => digitsValue base (acc * base + v) rest
    | none => none

/-- A number as R71 writes it: decimal, or hexadecimal behind 0x; at least one digit. -/
def numberValue : List Char → Option Nat
  | [] => none
  | '0' :: 'x' :: [] => none
  | '0' :: 'x' :: hex => digitsValue 16 0 hex
  | decimal => digitsValue 10 0 decimal

/-- The text without the spaces at its two ends (log 14). -/
def trimSpaces (text : List Char) : List Char :=
  ((text.dropWhile (· == ' ')).reverse.dropWhile (· == ' ')).reverse

/-- The pieces between the commas, at least one. -/
def splitCommas : List Char → List (List Char)
  | [] => [[]]
  | ch :: rest =>
    if ch = ',' then [] :: splitCommas rest
    else match splitCommas rest with
      | [] => [[ch]]
      | piece :: pieces => (ch :: piece) :: pieces

/-- The numbers these pieces spell, none if one of them is no number. -/
def numberValues : List (List Char) → Option (List Nat)
  | [] => some []
  | piece :: pieces =>
    match numberValue (trimSpaces piece), numberValues pieces with
    | some v, some vs => some (v :: vs)
    | _, _ => none

/-- The operands of a line: no text at all is no operand. -/
def operandValues (text : List Char) : Option (List Nat) :=
  if trimSpaces text = [] then some [] else numberValues (splitCommas text)

/-- The line a mnemonic of R71 or R72 and its operands make; none for another mnemonic or another number of operands. -/
def lineOf (mnemonic : List Char) (operands : List Nat) : Option Asm :=
  if mnemonic = "LOADKEY".toList then some (.loadkey operands)
  else if mnemonic = "INITIALIZE".toList then some (.initkey operands)
  else if mnemonic = "APPLYBUF".toList then some (.applybuf operands)
  else match operands with
  | [] =>
    if mnemonic = "NOP".toList then some .nop
    else if mnemonic = "INIT".toList then some .init
    else if mnemonic = "IJRD".toList then some .ijrd
    else if mnemonic = "RDSTAT".toList then some .rdstat
    else if mnemonic = "KSTREAM".toList then some .kstream
    else none
  | [n] =>
    if mnemonic = "KEYLEN".toList then some (.keylen n)
    else if mnemonic = "APPLY".toList then some (.apply n)
    else if mnemonic = "SRD".toList then some (.srd n)
    else none
  | [n, m] => if mnemonic = "KEYWR".toList then some (.keywr n m) else none
  | _ => none

/-- The line a text spells: the mnemonic up to the first space, then the operands. -/
def parseLine (text : List Char) : Option Asm :=
  let line := trimSpaces text
  match operandValues (line.dropWhile (· != ' ')) with
  | some operands => lineOf (line.takeWhile (· != ' ')) operands
  | none => none

/-- The command words a line of text spells; none for an assembly error (R71). -/
def assembleText (text : List Char) : Option (List Word) :=
  match parseLine text with
  | some line => assemble line
  | none => none

end Sys2Proof.Machine
end

