-- ==== Sys2Proof/Safety.lean ====
section
/-! DEFINITION. What the claims about the machine speak of: the response word as a number, what two states share, the permutation and the invariant, the document's KSA as a relation, the text of a number, and a sequence of commands issued on the port. -/

namespace Sys2Proof.Machine

/-! ## Responses (30_encoding.md R62) -/

/-- The response word as R62 computes it: `CODE * 2^17 + READY * 2^16 + D1 * 2^8 + D0`. -/
def answerWord (code : Nat) (ready : Bool) (d0 d1 : Byte) : Word :=
  BitVec.ofNat 32 (code * 2 ^ 17 + ready.toNat * 2 ^ 16 + d1.toNat * 2 ^ 8 + d0.toNat)

/-- The state with one more response, and nothing else changed. -/
def State.answered (s : State) (code : Nat) (d0 d1 : Byte) : State :=
  { s with responses := s.responses ++ [answerWord code s.READY d0 d1] }

/-- D0, bits 7:0 of a response word (R62). -/
def answerD0 (rw : Word) : Byte := rw.extractLsb' 0 8

/-- D1, bits 15:8 of a response word (R62). -/
def answerD1 (rw : Word) : Byte := rw.extractLsb' 8 8

/-- READY, bit 16 of a response word (R62). -/
def answerReady (rw : Word) : Bool := rw.getLsbD 16

/-- CODE, bits 18:17 of a response word (R62). -/
def answerCode (rw : Word) : BitVec 2 := rw.extractLsb' 17 2

/-- The D0 bytes of the responses t has beyond those of s, oldest first. -/
def newBytes (s t : State) : List Byte := (t.responses.drop s.responses.length).map answerD0

/-! ## What two states share -/

/-- The same cipher state: S, i and j (10_state.md R20). -/
def SameCipher (s t : State) : Prop := t.S = s.S ∧ t.i = s.i ∧ t.j = s.j

/-- The same block: all six pieces of state of R20. -/
def SameBlock (s t : State) : Prop :=
  SameCipher s t ∧ t.KEY = s.KEY ∧ t.KEYLEN = s.KEYLEN ∧ t.READY = s.READY

/-- The two agree on everything but S, i and j, and on these too unless READY = 0 (R32: they are unobservable then). -/
def SameButHidden (s t : State) : Prop :=
  t.KEY = s.KEY ∧ t.KEYLEN = s.KEYLEN ∧ t.READY = s.READY ∧ t.inputs = s.inputs ∧
    t.responses = s.responses ∧ (s.READY = true → SameCipher s t)

/-- The same outcome up to what READY = 0 hides: both go on in states that agree so, or both stop for one reason. -/
def SameOutcomeButHidden : Host.Outcome State Fault Refusal → Host.Outcome State Fault Refusal → Prop
  | .next s, .next t => SameButHidden s t
  | .fault a, .fault b => a = b
  | .refused a, .refused b => a = b
  | _, _ => False

/-! ## The invariant -/

/-- S holds each value 0 to 255 exactly once (R22). -/
def IsPermutation (S : SArray) : Prop := ∀ v : Byte, ∃! a : Byte, sRead S a = v

/-- KEY is in canonical form, and whenever READY = 1, S is a permutation (R22). -/
structure State.Inv (s : State) : Prop where
  key_wf : s.KEY.wf
  ready_permutation : s.READY = true → IsPermutation s.S

/-! ## The KSA of 41_ksa_init.md R91, as the document's steps relate one array to the next -/

/-- One iteration n of step 3, from array A and accumulator j to array A' and accumulator j'. -/
def KsaIteration (kb : Byte) (n : Byte) (A : Byte → Byte) (j : Byte) (A' : Byte → Byte) (j' : Byte) : Prop :=
  j' = j + A n + kb ∧ A' n = A j' ∧ A' j' = A n ∧ ∀ a, a ≠ n → a ≠ j' → A' a = A a

/-- S is the array the document's steps 1 to 3 leave for a key of L bytes `key 0, …, key (L-1)`: arrays
`A 0, …, A 256` and accumulators `J 0, …, J 256` lead from the identity and 0 to S. -/
def IsKsaResult (L : Nat) (key : Nat → Byte) (S : SArray) : Prop :=
  ∃ (A : Nat → Byte → Byte) (J : Nat → Byte),
    (∀ a, A 0 a = a) ∧ J 0 = 0 ∧
    (∀ n, n < 256 → KsaIteration (key (n % L)) (BitVec.ofNat 8 n) (A n) (J n) (A (n + 1)) (J (n + 1))) ∧
    ∀ a, sRead S a = A 256 a

/-- INIT's two conditions on the state (R90, R143): a legal KEYLEN, and KEY[0..KEYLEN-1] holding these bytes. -/
def KeyLoaded (s : State) (key : Nat → Byte) : Prop :=
  5 ≤ s.KEYLEN.toNat ∧ s.KEYLEN.toNat ≤ 256 ∧
    ∀ m : Nat, m < s.KEYLEN.toNat → s.keyAt (BitVec.ofNat 8 m) = some (key m)

/-! ## What a word does -/

/-- The word runs as this command, in every state. -/
def RunsAs (c : Config) (cw : Word) (i : Instr) : Prop := ∀ s, runWord c cw s = exec i s

/-- The word is ILLEGAL: in every state it ends with CODE 3, d0 = d1 = 0 and no other change (R67, R123, R124). -/
def AnswersIllegal (c : Config) (cw : Word) : Prop := ∀ s, runWord c cw s = .next (s.answered 3 0 0)

/-- One of the two reserved fields of the word is not 0: RSV_A, bits 27:25, or RSV_B, bits 15:8 (R61). -/
def HasReservedBits (cw : Word) : Prop := cw.extractLsb' 25 3 ≠ 0 ∨ cw.extractLsb' 8 8 ≠ 0

/-! ## Numbers in an assembly line (R71) -/

/-- The character writes this digit of this base, a letter in either case (log 14). -/
def DigitText (base d : Nat) (ch : Char) : Prop := d < base ∧ (ch = d.digitChar ∨ ch = d.digitChar.toUpper)

/-- The text writes this number: digits, most significant first, in decimal, or in hexadecimal behind 0x (R71).
Zeros may lead, as in 0x05. -/
def NumberText (n : Nat) (text : List Char) : Prop :=
  ∃ digits chars, digits ≠ [] ∧
    ((List.Forall₂ (DigitText 10) digits chars ∧ n = Nat.ofDigits 10 digits.reverse ∧ text = chars) ∨
      (List.Forall₂ (DigitText 16) digits chars ∧ n = Nat.ofDigits 16 digits.reverse ∧ text = '0' :: 'x' :: chars))

/-- The operand texts of a line, a comma and one space between two. -/
def operandText (texts : List (List Char)) : List Char := List.intercalate ", ".toList texts

/-! ## Commands in sequence -/

/-- The host issues these commands ahead of anything else it has presented, and the block takes as many steps:
each command gets its response before the next is taken (R60, R144). -/
def issue (is : List Instr) (s : State) : Host.Outcome State Fault Refusal :=
  Host.Core.run Sys2Proof.core is.length
    { s with inputs := is.map (fun i => HostInput.command (encode i)) ++ s.inputs }

end Sys2Proof.Machine
end

