-- ==== Sys2Proof/Certificates/Slice0/Obligations.lean ====
section
/-! DEFINITION. The statements for the provers, in the order of OBLIGATIONS.json. Each docstring names the rules of spec/ it formalises; a build c is any value of P_INSPECT unless it says otherwise. -/

open Sys2Proof Sys2Proof.Machine

/-! ## Decoding, encoding, assembly (30_encoding.md) -/

/-- R65, R70: the decoder gives back every command a build has from the word the encoder makes of it, every operand at
every value. -/
def Obligations.DecodeEncodeRoundTrip : Prop :=
  ∀ (c : Config) (i : Instr), i.wellFormed c = true → decode c (encode i) = .command i

/-- R65, R67: a word the decoder accepts is the one word of its command, and the build has that command: no bit of a
word is ignored. -/
def Obligations.EncodeDecodeRoundTrip : Prop :=
  ∀ (c : Config) (cw : Word) (i : Instr), decode c cw = .command i → encode i = cw ∧ i.wellFormed c = true

/-- R65: each row by its match and mask, its operands from the fields the pattern shows; no two rows match the same
word; SRD and IJRD only with P_INSPECT = 1; opcodes 0x8 to 0xF have no row. -/
def Obligations.OpcodeMapMatchesMasks : Prop :=
  (∀ (c : Config) (cw : Word),
    (decode c cw = .command .nop ↔ cw &&& 0xFFFFFFFF = 0x00000000) ∧
    (decode c cw = .command (.keywr (cw.extractLsb' 16 8) (cw.extractLsb' 0 8)) ↔ cw &&& 0xFF00FF00 = 0x10000000) ∧
    (decode c cw = .command (.keylen (cw.extractLsb' 16 9)) ↔ cw &&& 0xFE00FFFF = 0x20000000) ∧
    (decode c cw = .command .init ↔ cw &&& 0xFFFFFFFF = 0x30000000) ∧
    (decode c cw = .command (.apply (cw.extractLsb' 0 8)) ↔ cw &&& 0xFFFFFF00 = 0x40000000) ∧
    (decode c cw = .command (.srd (cw.extractLsb' 16 8)) ↔ c.pInspect = true ∧ cw &&& 0xFF00FFFF = 0x50000000) ∧
    (decode c cw = .command .ijrd ↔ c.pInspect = true ∧ cw &&& 0xFFFFFFFF = 0x60000000) ∧
    (decode c cw = .command .rdstat ↔ cw &&& 0xFFFFFFFF = 0x70000000) ∧
    (8 ≤ (cw.extractLsb' 28 4).toNat → ∃ why, decode c cw = .illegal why) ∧
    (c.pInspect = false → (cw &&& 0xFF00FFFF = 0x50000000 ∨ cw = 0x60000000) → ∃ why, decode c cw = .illegal why)) ∧
  List.Pairwise (fun p q : Word × Word => ∀ cw : Word, ¬ (cw &&& p.2 = p.1 ∧ cw &&& q.2 = q.1))
    [(0x00000000, 0xFFFFFFFF), (0x10000000, 0xFF00FF00), (0x20000000, 0xFE00FFFF), (0x30000000, 0xFFFFFFFF),
     (0x40000000, 0xFFFFFF00), (0x50000000, 0xFF00FFFF), (0x60000000, 0xFFFFFFFF), (0x70000000, 0xFFFFFFFF)]

/-- R67, R123: a word is ILLEGAL exactly under the conditions R67 lists, bit by bit; it then ends with CODE 3 in every
state and changes nothing; every other word decodes to a command. -/
def Obligations.IllegalWordsExactly : Prop :=
  ∀ (c : Config) (cw : Word),
    let op := (cw.extractLsb' 28 4).toNat
    let bad : Prop :=
      8 ≤ op ∨ (c.pInspect = false ∧ (op = 5 ∨ op = 6)) ∨ cw.extractLsb' 25 3 ≠ 0 ∨ cw.extractLsb' 8 8 ≠ 0 ∨
      ((op = 0 ∨ op = 3 ∨ op = 4 ∨ op = 6 ∨ op = 7) ∧ cw.extractLsb' 16 9 ≠ 0) ∨
      ((op = 1 ∨ op = 5) ∧ cw.extractLsb' 24 1 ≠ 0) ∨
      ((op = 0 ∨ op = 2 ∨ op = 3 ∨ op = 5 ∨ op = 6 ∨ op = 7) ∧ cw.extractLsb' 0 8 ≠ 0)
    ((∃ why, decode c cw = .illegal why) ↔ bad) ∧ (bad → AnswersIllegal c cw) ∧
      (¬ bad → ∃ i, decode c cw = .command i ∧ RunsAs c cw i)

/-- Words of 95_test_vectors.md 2.1 and of the rules' examples, at least one of each command: a sanity check of the
bits' places. -/
def Obligations.DecodesSampleWords : Prop :=
  decode Config.cmdV1 0x00000000 = .command .nop ∧
  decode Config.cmdV1 0x10FF00AB = .command (.keywr 255 0xAB) ∧
  decode Config.cmdV1 0x21000000 = .command (.keylen 256) ∧
  decode Config.cmdV1 0x30000000 = .command .init ∧
  decode Config.cmdV1 0x40000065 = .command (.apply 0x65) ∧
  decode Config.cmdV1 0x50030000 = .command (.srd 3) ∧
  decode Config.cmdV1 0x60000000 = .command .ijrd ∧
  decode Config.cmdV1 0x70000000 = .command .rdstat ∧
  (∃ why, decode Config.cmdV1 0x11000000 = .illegal why) ∧
  (∃ why, decode Config.secure 0x50030000 = .illegal why)

/-- R113: with P_INSPECT = 0, opcodes 0x5 and 0x6 are ILLEGAL, every other word decodes as in this spec's build (whose
P_INSPECT is 1), and no word but an APPLY answers anything that depends on S, i or j. -/
def Obligations.SecureBuildHidesCipherState : Prop :=
  Config.cmdV1.pInspect = true ∧
  ∀ (c : Config), c.pInspect = false → ∀ cw : Word,
    ((cw.extractLsb' 28 4 = 5 ∨ cw.extractLsb' 28 4 = 6) → AnswersIllegal c cw) ∧
    (cw.extractLsb' 28 4 ≠ 5 → cw.extractLsb' 28 4 ≠ 6 → decode c cw = decode Config.cmdV1 cw) ∧
    (cw.extractLsb' 28 4 ≠ 4 → ∀ (s s' : State) (S : SArray) (i j : Byte), runWord c cw s = .next s' →
      ∃ t', runWord c cw (s.withCipher S i j) = .next t' ∧ t'.responses = s'.responses)

/-- R71: the word of each mnemonic, as the table's sums, and an assembly error (no word) for an operand out of range. -/
def Obligations.AssemblyLinesSpellWords : Prop :=
  assemble .nop = some [0x00000000] ∧
  (∀ idx data, assemble (.keywr idx data) =
    if idx ≤ 255 ∧ data ≤ 255 then some [BitVec.ofNat 32 (0x10000000 + (idx <<< 16) + data)] else none) ∧
  (∀ len, assemble (.keylen len) =
    if len ≤ 511 then some [BitVec.ofNat 32 (0x20000000 + (len <<< 16))] else none) ∧
  assemble .init = some [0x30000000] ∧
  (∀ data, assemble (.apply data) = if data ≤ 255 then some [BitVec.ofNat 32 (0x40000000 + data)] else none) ∧
  (∀ idx, assemble (.srd idx) =
    if idx ≤ 255 then some [BitVec.ofNat 32 (0x50000000 + (idx <<< 16))] else none) ∧
  assemble .ijrd = some [0x60000000] ∧
  assemble .rdstat = some [0x70000000]

/-- R72: the words of LOADKEY (none for more than 256 bytes), INITIALIZE, APPLYBUF and KSTREAM. That LOADKEY of no
bytes is KEYLEN 0 alone is the model's choice (log 14): R72 does not say it. -/
def Obligations.PseudoInstructionsExpand : Prop :=
  (∀ key : List Nat, (∀ k ∈ key, k ≤ 255) →
    assemble (.loadkey key) =
      (if key.length ≤ 256 then
        some (key.mapIdx (fun m k => BitVec.ofNat 32 (0x10000000 + (m <<< 16) + k)) ++
          [BitVec.ofNat 32 (0x20000000 + (key.length <<< 16))])
      else none) ∧
    assemble (.initkey key) = (assemble (.loadkey key)).map (· ++ [0x30000000])) ∧
  (∀ buf : List Nat, (∀ b ∈ buf, b ≤ 255) →
    assemble (.applybuf buf) = some (buf.map fun b => BitVec.ofNat 32 (0x40000000 + b))) ∧
  assemble .kstream = some [0x40000000]

/-- R71, R72: each number of a line may be written in decimal or in 0x hexadecimal, whichever the others are in; the
line of each mnemonic and each pseudo-instruction, with any such operands, spells what the mnemonic with those numbers
spells, and nothing where that is nothing. The model's choice (log 14): one space after the mnemonic and after a comma is
passed over, a hexadecimal letter may stand in either case, and LOADKEY of no bytes is KEYLEN 0 alone. -/
def Obligations.AssemblyTextSpellsWords : Prop :=
  (∀ n : Nat, NumberText n (Nat.toDigits 10 n) ∧ NumberText n ('0' :: 'x' :: Nat.toDigits 16 n)) ∧
  (∀ n text, NumberText n text → numberValue text = some n) ∧
  (∀ idx data idxText dataText, NumberText idx idxText → NumberText data dataText →
    assembleText ("KEYWR ".toList ++ operandText [idxText, dataText]) = assemble (.keywr idx data)) ∧
  (∀ n text, NumberText n text →
    assembleText ("KEYLEN ".toList ++ operandText [text]) = assemble (.keylen n) ∧
    assembleText ("APPLY ".toList ++ operandText [text]) = assemble (.apply n) ∧
    assembleText ("SRD ".toList ++ operandText [text]) = assemble (.srd n)) ∧
  (∀ ns texts, List.Forall₂ NumberText ns texts →
    assembleText ("LOADKEY ".toList ++ operandText texts) = assemble (.loadkey ns) ∧
    assembleText ("INITIALIZE ".toList ++ operandText texts) = assemble (.initkey ns) ∧
    assembleText ("APPLYBUF ".toList ++ operandText texts) = assemble (.applybuf ns)) ∧
  ["NOP", "INIT", "IJRD", "RDSTAT", "KSTREAM", "APPLYBUF"].map (fun line => assembleText line.toList) =
    [some [0x00000000], some [0x30000000], some [0x60000000], some [0x70000000], some [0x40000000], some []]

/-! ## The port and the step (30_encoding.md R60, 20_memory.md) -/

/-- R60, R70: when the oldest input is a word that decodes to a command, the step is that command's meaning on the
state without that input; a word that spells none ends with ILLEGAL; and `withFetchWord` presents exactly that word. -/
def Obligations.StepRunsDecodedCommand : Prop :=
  (∀ (c : Config) (s : State) (cw : Word) (rest : List HostInput) (i : Instr),
    s.inputs = .command cw :: rest → decode c cw = .command i → stepWith c s = exec i { s with inputs := rest }) ∧
  (∀ (c : Config) (s : State) (cw : Word) (rest : List HostInput) (why : Illegal),
    s.inputs = .command cw :: rest → decode c cw = .illegal why →
      stepWith c s = .next (State.answered { s with inputs := rest } 3 0 0)) ∧
  (∀ s : State, step s = stepWith Config.cmdV1 s) ∧
  (∀ (s : State) (w : Nat) (i : Instr), decodeTableWord 32 w = some i → step (s.withFetchWord 32 w) = exec i s)

/-- R134, log 2 (the model's reading: a step with nothing on the port is an idle block): all state is kept. -/
def Obligations.IdleBlockKeepsState : Prop :=
  ∀ (c : Config) (s : State), s.inputs = [] → stepWith c s = .next s

/-- R48: a step takes the oldest input alone; what it does is the same whatever waits behind, and that waits on, in
its order. R48 speaks of commands: that what waits behind a reset stays too is the model's choice (log 9). -/
def Obligations.StepTakesOldestInputOnly : Prop :=
  ∀ (c : Config) (s t : State) (x : HostInput) (rest : List HostInput),
    stepWith c { s with inputs := x :: rest } = .next t →
    t.inputs = rest ∧
      ∀ rest', stepWith c { s with inputs := x :: rest' } = .next { t with inputs := rest' }

/-- R62: one response per command, with bits 31:19 zero, bit 16 the READY of the state after, the two result bytes 0
when CODE is not 0 or the command returns nothing, and the value `CODE * 2^17 + READY * 2^16 + D1 * 2^8 + D0`. -/
def Obligations.ResponseWordFormat : Prop :=
  ∀ (c : Config) (cw : Word) (s t : State), runWord c cw s = .next t →
    ∃ rw : Word, t.responses = s.responses ++ [rw] ∧
      rw.extractLsb' 19 13 = 0 ∧ rw.getLsbD 16 = t.READY ∧
      (answerCode rw ≠ 0 → answerD0 rw = 0 ∧ answerD1 rw = 0) ∧
      (∀ i, decode c cw = .command i →
        (i = .nop ∨ (∃ a v, i = .keywr a v) ∨ (∃ l, i = .keylen l) ∨ i = .init) → answerD0 rw = 0 ∧ answerD1 rw = 0) ∧
      rw.toNat = (answerCode rw).toNat * 2 ^ 17 + (answerReady rw).toNat * 2 ^ 16 +
        (answerD1 rw).toNat * 2 ^ 8 + (answerD0 rw).toNat

/-! ## Key loading (40_key_loading.md) -/

/-- R80: NOP is the word 0 and nothing else of OP 0, runs at either READY, answers OK and changes nothing. -/
def Obligations.NopAnswersOk : Prop :=
  (∀ c : Config, RunsAs c 0x00000000 .nop) ∧
  (∀ (c : Config) (cw : Word), cw.extractLsb' 28 4 = 0 → cw ≠ 0 → AnswersIllegal c cw) ∧
  ∀ s : State, exec .nop s = .next (s.answered 0 0 0)

/-- R81: KEYWR's word, its ILLEGAL neighbours, and its effect: KEY[idx] becomes data, the last write to an index wins,
every other KEY byte, S, i, j, KEYLEN and READY are unchanged, the answer is OK; a running keystream goes on as it was;
the next INIT schedules with data, and ignores an index at or above KEYLEN. -/
def Obligations.KeywrWritesOneKeyByte : Prop :=
  (∀ (c : Config) (idx data : Byte),
    RunsAs c (BitVec.ofNat 32 (0x10000000 + (idx.toNat <<< 16) + data.toNat)) (.keywr idx data)) ∧
  (∀ (c : Config) (cw : Word), cw.extractLsb' 28 4 = 1 → (HasReservedBits cw ∨ cw.extractLsb' 24 1 ≠ 0) →
    AnswersIllegal c cw) ∧
  ∀ (idx data : Byte) (s : State), ∃ t, exec (.keywr idx data) s = .next t ∧
    t.keyAt idx = some data ∧ (∀ b, b ≠ idx → t.keyAt b = s.keyAt b) ∧
    SameCipher s t ∧ t.KEYLEN = s.KEYLEN ∧ t.READY = s.READY ∧ t.inputs = s.inputs ∧
    t.responses = s.responses ++ [answerWord 0 s.READY 0 0] ∧
    (∀ data' u, exec (.keywr idx data') t = .next u → u.keyAt idx = some data') ∧
    (s.READY = true → ∀ d, ∃ u v, exec (.apply d) s = .next u ∧ exec (.apply d) t = .next v ∧
      newBytes s u = newBytes t v ∧ SameCipher u v) ∧
    (∀ key, KeyLoaded t key → (idx.toNat < t.KEYLEN.toNat → key idx.toNat = data) ∧
      ∃ v, exec .init t = .next v ∧ IsKsaResult t.KEYLEN.toNat key v.S) ∧
    (s.KEYLEN.toNat ≤ idx.toNat → ∀ u, exec .init s = .next u → ∃ v, exec .init t = .next v ∧ SameCipher u v)

/-- R82: KEYLEN's word, its ILLEGAL neighbours, and its effect: KEYLEN becomes len, every value of it, nothing
else changes but the answer OK, and a running keystream goes on as it was. -/
def Obligations.KeylenSetsKeyLength : Prop :=
  (∀ (c : Config) (len : KeyLength), RunsAs c (BitVec.ofNat 32 (0x20000000 + (len.toNat <<< 16))) (.keylen len)) ∧
  (∀ (c : Config) (cw : Word), cw.extractLsb' 28 4 = 2 → (HasReservedBits cw ∨ cw.extractLsb' 0 8 ≠ 0) →
    AnswersIllegal c cw) ∧
  ∀ (len : KeyLength) (s : State), ∃ t, exec (.keylen len) s = .next t ∧ t.KEYLEN = len ∧
    (∀ a, t.keyAt a = s.keyAt a) ∧ SameCipher s t ∧ t.READY = s.READY ∧ t.inputs = s.inputs ∧
    t.responses = s.responses ++ [answerWord 0 s.READY 0 0] ∧
    (s.READY = true → ∀ d, ∃ u v, exec (.apply d) s = .next u ∧ exec (.apply d) t = .next v ∧
      newBytes s u = newBytes t v ∧ SameCipher u v)

/-! ## INIT and the KSA (41_ksa_init.md) -/

/-- R92: with KEYLEN outside 5 to 256, INIT answers INVALID_KEY_LENGTH and changes nothing, whatever KEY holds; inside
it, INIT never answers that. -/
def Obligations.InitRejectsIllegalLength : Prop :=
  (∀ s : State, (s.KEYLEN.toNat < 5 ∨ 256 < s.KEYLEN.toNat) → exec .init s = .next (s.answered 1 0 0)) ∧
  (∀ s t : State, 5 ≤ s.KEYLEN.toNat → s.KEYLEN.toNat ≤ 256 → exec .init s = .next t →
    t.responses = s.responses ++ [answerWord 0 true 0 0])

/-- R90, R91, R93: INIT's word in every build and its ILLEGAL neighbours; INVALID_KEY_LENGTH with KEYLEN outside 5 to
256; KeyUnwritten on an unwritten key byte; and with a legal KEYLEN and the key bytes loaded, at either READY, INIT goes
on: S is the array the document's steps 1 to 3 leave (`IsKsaResult`, which relates each iteration's array to the next),
i and j are 0, READY is 1, KEY and KEYLEN are unchanged, the answer is OK, and a second INIT leaves the same block. -/
def Obligations.InitRunsKsaAndClearsCursors : Prop :=
  (∀ c : Config, RunsAs c 0x30000000 .init) ∧
  (∀ (c : Config) (cw : Word), cw.extractLsb' 28 4 = 3 → cw ≠ 0x30000000 → AnswersIllegal c cw) ∧
  (∀ s : State, (s.KEYLEN.toNat < 5 ∨ 256 < s.KEYLEN.toNat) → exec .init s = .next (s.answered 1 0 0)) ∧
  (∀ s : State, 5 ≤ s.KEYLEN.toNat → s.KEYLEN.toNat ≤ 256 →
    (∃ m : Nat, m < s.KEYLEN.toNat ∧ s.keyAt (BitVec.ofNat 8 m) = none) → exec .init s = .fault .keyUnwritten) ∧
  ∀ (s : State) (key : Nat → Byte), KeyLoaded s key →
    ∃ t, exec .init s = .next t ∧ IsKsaResult s.KEYLEN.toNat key t.S ∧ t.i = 0 ∧ t.j = 0 ∧ t.READY = true ∧
      (∀ a, t.keyAt a = s.keyAt a) ∧ t.KEYLEN = s.KEYLEN ∧ t.inputs = s.inputs ∧
      t.responses = s.responses ++ [answerWord 0 true 0 0] ∧
      ∃ u, exec .init t = .next u ∧ SameBlock t u

/-- R91: the document's steps determine the array: two results for the same key bytes are the same array. -/
def Obligations.KsaResultIsUnique : Prop :=
  ∀ (L : Nat) (key key' : Nat → Byte) (S T : SArray), 0 < L → (∀ m, m < L → key m = key' m) →
    IsKsaResult L key S → IsKsaResult L key' T → S = T

/-- R136: INIT raises the model fault exactly when KEYLEN is legal and some key byte below it was never written; no
other command faults; and once it faults, with only commands waiting, no later step clears it. A reset that waits is
FaultEndsRun's. -/
def Obligations.InitFaultsOnUnwrittenKey : Prop :=
  (∀ s : State, exec .init s = .fault .keyUnwritten ↔
    5 ≤ s.KEYLEN.toNat ∧ s.KEYLEN.toNat ≤ 256 ∧
      ∃ m : Nat, m < s.KEYLEN.toNat ∧ s.keyAt (BitVec.ofNat 8 m) = none) ∧
  (∀ (i : Instr) (s : State) (f : Fault), exec i s = .fault f → i = .init) ∧
  (∀ (s : State) (f : Fault) (n : Nat), (∀ x ∈ s.inputs, ∃ cw, x = .command cw) → step s = .fault f →
    Host.Core.run Sys2Proof.core (n + 1) s = .fault f)

/-- R22, R94: a successful INIT leaves a permutation, from any state. -/
def Obligations.InitEstablishesPermutation : Prop :=
  ∀ (s : State) (key : Nat → Byte), KeyLoaded s key → ∃ t, exec .init s = .next t ∧ IsPermutation t.S

/-- R94: INIT is a function of KEYLEN and KEY[0..KEYLEN-1] alone: two states that agree on these get the same cipher
state, whatever S, i, j, READY and the rest of KEY were, and then the same keystream on buffers of zeros. -/
def Obligations.InitDependsOnKeyAlone : Prop :=
  ∀ (s t : State) (key : Nat → Byte), KeyLoaded s key → KeyLoaded t key → s.KEYLEN = t.KEYLEN →
    ∃ s' t', exec .init s = .next s' ∧ exec .init t = .next t' ∧ SameCipher s' t' ∧
      ∀ n : Nat, ∃ s'' t'', issue (List.replicate n (.apply 0)) s' = .next s'' ∧
        issue (List.replicate n (.apply 0)) t' = .next t'' ∧ newBytes s' s'' = newBytes t' t''

/-! ## APPLY and the PRGA (42_prga_apply.md) -/

/-- R100: with READY = 1, APPLY goes on and is one nextByte: i steps, j adds S[i], the two entries are swapped, every
other entry, KEY, KEYLEN and READY are unchanged, and the byte is read from the swapped array; with i = j, S is unchanged
and the byte is S[2 × S[i]]; KEY and KEYLEN play no part. -/
def Obligations.ApplyStepsThePrga : Prop :=
  ∀ (s : State) (d : Byte), s.READY = true →
    ∃ t, exec (.apply d) s = .next t ∧
      t.i = s.i + 1 ∧ t.j = s.j + s.sAt (s.i + 1) ∧
      t.sAt t.i = s.sAt t.j ∧ t.sAt t.j = s.sAt t.i ∧ (∀ a, a ≠ t.i → a ≠ t.j → t.sAt a = s.sAt a) ∧
      t.responses = s.responses ++ [answerWord 0 true (d ^^^ t.sAt (t.sAt t.i + t.sAt t.j)) 0] ∧
      (t.i = t.j → t.S = s.S ∧
        t.responses = s.responses ++ [answerWord 0 true (d ^^^ s.sAt (2 * s.sAt t.i)) 0]) ∧
      (∀ a, t.keyAt a = s.keyAt a) ∧ t.KEYLEN = s.KEYLEN ∧ t.READY = true ∧ t.inputs = s.inputs ∧
      (∀ (key : Memory) (len : KeyLength),
        exec (.apply d) { s with KEY := key, KEYLEN := len } = .next { t with KEY := key, KEYLEN := len })

/-- R101: APPLY's word, its ILLEGAL neighbours, NOT_READY without a cipher state; with one, a keystream byte k and a
next cipher state that the data byte does not touch, D0 = data XOR k, so k itself for 0x00 and NOT k for 0xFF; i
wraps from 255 to 0. -/
def Obligations.ApplyCombinesDataByte : Prop :=
  (∀ (c : Config) (d : Byte), RunsAs c (BitVec.ofNat 32 (0x40000000 + d.toNat)) (.apply d)) ∧
  (∀ (c : Config) (cw : Word), cw.extractLsb' 28 4 = 4 → (HasReservedBits cw ∨ cw.extractLsb' 16 9 ≠ 0) →
    AnswersIllegal c cw) ∧
  (∀ (s : State) (d : Byte), s.READY = false → exec (.apply d) s = .next (s.answered 2 0 0)) ∧
  (∀ s : State, s.READY = true → ∃ (k : Byte) (S : SArray) (i j : Byte),
    (∀ d : Byte, exec (.apply d) s = .next ((s.withCipher S i j).answered 0 (d ^^^ k) 0)) ∧
    exec (.apply 0x00) s = .next ((s.withCipher S i j).answered 0 k 0) ∧
    exec (.apply 0xFF) s = .next ((s.withCipher S i j).answered 0 (~~~ k) 0) ∧
    i = s.i + 1 ∧ (s.i = 255 → i = 0) ∧ j = s.j + s.sAt i ∧ S = sSwap s.S i j ∧
    k = sRead S (sRead S i + sRead S j))

/-- R102: a buffer of APPLY commands gives one output byte per input byte, each the input XOR the keystream byte that
a buffer of zeros of that length shows; an empty buffer changes nothing; and every command but APPLY and a successful
INIT leaves S, i and j alone, so that it changes no later output byte. -/
def Obligations.ApplyBufferPreservesLength : Prop :=
  (∀ (s : State) (buf : List Byte), s.READY = true →
    ∃ t z, issue (buf.map .apply) s = .next t ∧ issue (List.replicate buf.length (.apply 0)) s = .next z ∧
      (newBytes s t).length = buf.length ∧ SameBlock z t ∧
      newBytes s t = List.zipWith (· ^^^ ·) buf (newBytes s z)) ∧
  (∀ s : State, issue [] s = .next s) ∧
  (∀ (i : Instr) (s t : State), exec i s = .next t → (∀ d, i ≠ .apply d) →
    (i = .init → t.responses ≠ s.responses ++ [answerWord 0 true 0 0]) → SameCipher s t)

/-- R103, R130: after a successful INIT and p APPLY commands, i is p modulo 256; and a buffer cut in two gives the same
bytes and the same block as the whole, so the second part continues the keystream. -/
def Obligations.KeystreamContinuesAndIsCounted : Prop :=
  (∀ (s : State) (key : Nat → Byte) (buf : List Byte), KeyLoaded s key →
    ∃ t, issue (.init :: buf.map .apply) s = .next t ∧ t.i = BitVec.ofNat 8 buf.length) ∧
  (∀ (s : State) (a b : List Byte), s.READY = true →
    ∃ t u v, issue (a.map .apply) s = .next t ∧ issue (b.map .apply) t = .next u ∧
      issue ((a ++ b).map .apply) s = .next v ∧ SameBlock u v ∧ newBytes s v = newBytes s t ++ newBytes t u)

/-- R104: two instances in step undo each other, byte for byte, and stay in step; with one block, a successful INIT
under the same key before each pass does the same. -/
def Obligations.ApplyIsSelfInverse : Prop :=
  (∀ (s s' : State) (buf : List Byte), s.READY = true → s'.READY = true → SameCipher s s' →
    ∃ t t', issue (buf.map .apply) s = .next t ∧ issue ((newBytes s t).map .apply) s' = .next t' ∧
      newBytes s' t' = buf ∧ SameCipher t t') ∧
  (∀ (s : State) (key : Nat → Byte) (buf : List Byte), KeyLoaded s key →
    ∃ a t b u, exec .init s = .next a ∧ issue (buf.map .apply) a = .next t ∧ exec .init t = .next b ∧
      issue ((newBytes a t).map .apply) b = .next u ∧ newBytes b u = buf)

/-! ## Inspection (43_inspection.md) -/

/-- R110: SRD's word (present with P_INSPECT = 1), its ILLEGAL neighbours, NOT_READY without a cipher state; with one,
D0 = S[idx] and no state changes; all 256 indices then show each byte exactly once, given the invariant. -/
def Obligations.SrdReadsOneEntry : Prop :=
  (∀ (c : Config) (idx : Byte), c.pInspect = true →
    RunsAs c (BitVec.ofNat 32 (0x50000000 + (idx.toNat <<< 16))) (.srd idx)) ∧
  (∀ (c : Config) (cw : Word), cw.extractLsb' 28 4 = 5 →
    (c.pInspect = false ∨ HasReservedBits cw ∨ cw.extractLsb' 24 1 ≠ 0 ∨ cw.extractLsb' 0 8 ≠ 0) →
    AnswersIllegal c cw) ∧
  (∀ (s : State) (idx : Byte), s.READY = false → exec (.srd idx) s = .next (s.answered 2 0 0)) ∧
  (∀ (s : State) (idx : Byte), s.READY = true → exec (.srd idx) s = .next (s.answered 0 (s.sAt idx) 0)) ∧
  (∀ s : State, s.Inv → s.READY = true → ∀ v : Byte, ∃! idx : Byte, exec (.srd idx) s = .next (s.answered 0 v 0))

/-- R111: IJRD's word (present with P_INSPECT = 1), its ILLEGAL neighbours, NOT_READY without a cipher state; with one,
D0 = i, D1 = j and no state changes; right after a successful INIT it answers 0, 0. -/
def Obligations.IjrdReadsBothCursors : Prop :=
  (∀ c : Config, c.pInspect = true → RunsAs c 0x60000000 .ijrd) ∧
  (∀ (c : Config) (cw : Word), cw.extractLsb' 28 4 = 6 → (c.pInspect = false ∨ cw ≠ 0x60000000) →
    AnswersIllegal c cw) ∧
  (∀ s : State, s.READY = false → exec .ijrd s = .next (s.answered 2 0 0)) ∧
  (∀ s : State, s.READY = true → exec .ijrd s = .next (s.answered 0 s.i s.j)) ∧
  (∀ (s t : State), 5 ≤ s.KEYLEN.toNat → s.KEYLEN.toNat ≤ 256 → exec .init s = .next t →
    exec .ijrd t = .next (t.answered 0 0 0))

/-- R112: RDSTAT's word, at both values of P_INSPECT, its ILLEGAL neighbours, and its answer at either READY:
D0 = KEYLEN mod 256, D1 = KEYLEN / 256, with no state changed. -/
def Obligations.RdstatReadsKeyLength : Prop :=
  (∀ c : Config, RunsAs c 0x70000000 .rdstat) ∧
  (∀ (c : Config) (cw : Word), cw.extractLsb' 28 4 = 7 → cw ≠ 0x70000000 → AnswersIllegal c cw) ∧
  ∀ s : State, exec .rdstat s =
    .next (s.answered 0 (BitVec.ofNat 8 (s.KEYLEN.toNat % 256)) (BitVec.ofNat 8 (s.KEYLEN.toNat / 256)))

/-! ## Errors (60_exceptions.md) -/

/-- R121, R122, R125: the code of a response has exactly one cause: ILLEGAL the decoder's, then NOT_READY of APPLY, SRD
and IJRD with READY = 0, then INVALID_KEY_LENGTH of INIT with KEYLEN outside 5 to 256; each with d0 = d1 = 0; and INIT
looks at the length before any key byte. -/
def Obligations.EachCodeHasOneCause : Prop :=
  (∀ (c : Config) (cw : Word) (s t : State) (rw : Word),
    runWord c cw s = .next t → t.responses = s.responses ++ [rw] →
    (answerCode rw = 3 ↔ ∃ why, decode c cw = .illegal why) ∧
    (answerCode rw = 2 ↔ s.READY = false ∧
      ∃ i, decode c cw = .command i ∧ ((∃ d, i = .apply d) ∨ (∃ a, i = .srd a) ∨ i = .ijrd)) ∧
    (answerCode rw = 1 ↔ decode c cw = .command .init ∧ (s.KEYLEN.toNat < 5 ∨ 256 < s.KEYLEN.toNat)) ∧
    (answerCode rw ≠ 0 → answerD0 rw = 0 ∧ answerD1 rw = 0)) ∧
  (∀ s : State, (s.KEYLEN.toNat < 5 ∨ 256 < s.KEYLEN.toNat) → (∀ a, s.keyAt a = none) →
    exec .init s = .next (s.answered 1 0 0))

/-- R124: a command that ends with CODE other than 0 changes no state, answers d0 = d1 = 0 and the unchanged READY, and
the next command runs as if it had not been issued (but for the response already given). -/
def Obligations.ErrorsChangeNoState : Prop :=
  ∀ (c : Config) (cw : Word) (s t : State) (rw : Word),
    runWord c cw s = .next t → t.responses = s.responses ++ [rw] → answerCode rw ≠ 0 →
    SameBlock s t ∧ t.inputs = s.inputs ∧ answerD0 rw = 0 ∧ answerD1 rw = 0 ∧ answerReady rw = s.READY ∧
    (∀ (cw' : Word) (u : State) (rw' : Word), runWord c cw' s = .next u → u.responses = s.responses ++ [rw'] →
      ∃ v, runWord c cw' t = .next v ∧ v.responses = t.responses ++ [rw'] ∧ SameBlock u v) ∧
    (∀ (cw' : Word) (f : Fault), runWord c cw' s = .fault f → runWord c cw' t = .fault f)

/-- R45: two INITs in a row leave the same state as one, KEYWR and KEYLEN twice the same as once, NOP, SRD, IJRD and
RDSTAT change no state; APPLY is not idempotent: in some state that meets the invariant, with a running cipher, two with
the same byte answer differently. -/
def Obligations.IdempotentCommands : Prop :=
  (∀ s t : State, 5 ≤ s.KEYLEN.toNat → s.KEYLEN.toNat ≤ 256 → exec .init s = .next t →
    ∃ u, exec .init t = .next u ∧ SameBlock t u ∧ u.i = 0 ∧ u.j = 0 ∧ u.READY = true) ∧
  (∀ (i : Instr) (s : State), ((∃ a v, i = .keywr a v) ∨ ∃ l, i = .keylen l) →
    ∃ t u, exec i s = .next t ∧ exec i t = .next u ∧ SameBlock t u) ∧
  (∀ (i : Instr) (s : State), (i = .nop ∨ (∃ a, i = .srd a) ∨ i = .ijrd ∨ i = .rdstat) →
    ∃ t rw, exec i s = .next t ∧ t = { s with responses := s.responses ++ [rw] }) ∧
  (∃ s t u : State, s.Inv ∧ s.READY = true ∧ exec (.apply 0) s = .next t ∧ exec (.apply 0) t = .next u ∧
    newBytes s t ≠ newBytes t u)

/-! ## Who writes what (10_state.md) -/

/-- R27: READY is set only by an INIT that answers OK and cleared only by reset; a failed INIT leaves it; every
response reports it in bit 16; APPLY, SRD and IJRD need it. -/
def Obligations.ReadySetByInitClearedByReset : Prop :=
  (∀ (c : Config) (s t : State), stepWith c s = .next t →
    (s.READY = false → t.READY = true → ∃ cw rest, s.inputs = .command cw :: rest ∧
      decode c cw = .command .init ∧ t.responses = s.responses ++ [answerWord 0 true 0 0]) ∧
    (s.READY = true → t.READY = false →
      ∃ x rest, s.inputs = x :: rest ∧ (x = .reset ∨ ∃ cw, x = .resetDuring cw))) ∧
  (∀ s t : State, exec .init s = .next t → t.responses ≠ s.responses ++ [answerWord 0 true 0 0] →
    t.READY = s.READY) ∧
  (∀ (c : Config) (cw : Word) (s t : State), runWord c cw s = .next t →
    ∃ rw, t.responses = s.responses ++ [rw] ∧ rw.getLsbD 16 = t.READY) ∧
  (∀ (i : Instr) (s : State), s.READY = false → ((∃ d, i = .apply d) ∨ (∃ a, i = .srd a) ∨ i = .ijrd) →
    exec i s = .next (s.answered 2 0 0))

/-- R25, R26, R40: in any word's run, a KEY byte changes only by a KEYWR at its index, to that data byte, and KEYLEN
only by a KEYLEN, to its operand. -/
def Obligations.KeyStateWrittenOnlyByItsCommand : Prop :=
  ∀ (c : Config) (cw : Word) (s t : State), runWord c cw s = .next t →
    (∀ a, t.keyAt a = s.keyAt a ∨ ∃ v, decode c cw = .command (.keywr a v) ∧ t.keyAt a = some v) ∧
    (t.KEYLEN = s.KEYLEN ∨ ∃ l, decode c cw = .command (.keylen l) ∧ t.KEYLEN = l)

/-- R21, R23, R24: in any word's run, S, i and j are all unchanged, or it is an INIT that leaves i = j = 0, or it is an
APPLY that steps i, adds S[i] to j and swaps those two entries. -/
def Obligations.CipherStateWrittenOnlyByInitAndApply : Prop :=
  ∀ (c : Config) (cw : Word) (s t : State), runWord c cw s = .next t →
    SameCipher s t ∨ (decode c cw = .command .init ∧ t.i = 0 ∧ t.j = 0 ∧ t.READY = true) ∨
    (∃ d, decode c cw = .command (.apply d) ∧ s.READY = true ∧ t.i = s.i + 1 ∧ t.j = s.j + s.sAt (s.i + 1) ∧
      t.S = sSwap s.S t.i t.j)

/-- R25, R47: no word but an INIT has an answer, a next cipher state, KEYLEN or READY that depends on KEY: KEY is never
returned to the host. -/
def Obligations.KeyNeverReturned : Prop :=
  ∀ (c : Config) (cw : Word) (s s' : State) (key : Memory), decode c cw ≠ .command .init →
    runWord c cw s = .next s' →
    ∃ t', runWord c cw { s with KEY := key } = .next t' ∧ t'.responses = s'.responses ∧ SameCipher s' t' ∧
      t'.KEYLEN = s'.KEYLEN ∧ t'.READY = s'.READY

/-- R146: loading a key does not touch the running keystream: any number of KEYWR and KEYLEN commands between leave the
answer of the next APPLY and its cipher state as they would have been. -/
def Obligations.KeyChangeWaitsForInit : Prop :=
  ∀ (loads : List Instr) (s : State) (d : Byte), (∀ i ∈ loads, (∃ a v, i = .keywr a v) ∨ ∃ l, i = .keylen l) →
    s.READY = true → ∃ t u v, issue loads s = .next t ∧ exec (.apply d) s = .next u ∧ exec (.apply d) t = .next v ∧
      newBytes s u = newBytes t v ∧ SameCipher u v

/-- R32, R34: what S, i and j hold while READY = 0 is never observable: two states that agree on all else run alike for
any number of steps, with the same responses, until both stop for one reason or an INIT has made them equal. -/
def Obligations.UnreadyCipherStateIsUnobservable : Prop :=
  ∀ (n : Nat) (s t : State), SameButHidden s t →
    SameOutcomeButHidden (Host.Core.run Sys2Proof.core n s) (Host.Core.run Sys2Proof.core n t)

/-! ## The invariant and reset -/

/-- R22, R105: every step of every build keeps the invariant: KEY in canonical form, and S a permutation whenever
READY = 1. -/
def Obligations.StepKeepsPermutationInvariant : Prop :=
  ∀ (c : Config) (s t : State), s.Inv → stepWith c s = .next t → t.Inv

/-- R22, R34: the invariant holds after reset. -/
def Obligations.ResetMeetsPermutationInvariant : Prop := State.reset.Inv

/-- R34: after reset READY = 0, KEYLEN = 0 and every KEY byte counts as unwritten, so an INIT before any KEYLEN command
ends with INVALID_KEY_LENGTH. S, i and j are unspecified, and nothing is said of them. -/
def Obligations.ResetStateValues : Prop :=
  State.reset.READY = false ∧ State.reset.KEYLEN = 0 ∧ (∀ a, State.reset.keyAt a = none) ∧
  (∀ s : State, s.READY = false → s.KEYLEN = 0 → exec .init s = .next (s.answered 1 0 0))

/-- R140, R141: a reset, between commands or during one, leaves READY = 0, KEYLEN = 0 and every KEY byte unwritten, and
the command it cuts off has no response. That this holds also of an INIT with a legal KEYLEN and an unwritten key byte,
and is no KeyUnwritten, is the model's choice (log 12). -/
def Obligations.ResetEventClearsBlock : Prop :=
  ∀ (c : Config) (s : State) (x : HostInput) (rest : List HostInput),
    s.inputs = x :: rest → (x = .reset ∨ ∃ cw, x = .resetDuring cw) →
    ∃ t, stepWith c s = .next t ∧ t.READY = false ∧ t.KEYLEN = 0 ∧ (∀ a, t.keyAt a = none) ∧
      ∀ rw, t.responses ≠ s.responses ++ [rw]

/-- Log 9, the model's choice: a reset keeps the responses already given and what the host has presented behind it. -/
def Obligations.ResetEventKeepsPort : Prop :=
  ∀ (c : Config) (s : State) (x : HostInput) (rest : List HostInput),
    s.inputs = x :: rest → (x = .reset ∨ ∃ cw, x = .resetDuring cw) →
    ∃ t, stepWith c s = .next t ∧ t.inputs = rest ∧ t.responses = s.responses

/-! ## Boot (70_reset_and_hazards.md R143) -/

/-- R72, R143: LOADKEY of a key of at most 256 bytes, from any state, ends with KEY[m] the m-th byte for every m below
its length, every other KEY byte, S, i, j and READY unchanged, KEYLEN the length, and one OK per command. That LOADKEY of no bytes is
KEYLEN 0 alone is the model's choice (log 14). -/
def Obligations.LoadKeyFillsKeyBuffer : Prop :=
  ∀ (s : State) (key : List Nat), key.length ≤ 256 → (∀ k ∈ key, k ≤ 255) →
    ∃ t, issue (Asm.commands (.loadkey key)) s = .next t ∧
      (∀ m (h : m < key.length), t.keyAt (BitVec.ofNat 8 m) = some (BitVec.ofNat 8 key[m])) ∧
      (∀ a : Byte, key.length ≤ a.toNat → t.keyAt a = s.keyAt a) ∧
      t.KEYLEN.toNat = key.length ∧ SameCipher s t ∧ t.READY = s.READY ∧
      t.responses = s.responses ++ List.replicate (key.length + 1) (answerWord 0 s.READY 0 0)

/-- R143: the boot sequence works: for every key of 5 to 256 bytes and from every state, INITIALIZE ends with CODE 0 and
READY = 1, S the KSA's array for that key, i = j = 0; and then every APPLY, SRD and IJRD goes on with CODE 0. -/
def Obligations.InitializeReachesReady : Prop :=
  ∀ (s : State) (key : List Nat), 5 ≤ key.length → key.length ≤ 256 → (∀ k ∈ key, k ≤ 255) →
    ∃ t, issue (Asm.commands (.initkey key)) s = .next t ∧
      t.READY = true ∧ t.i = 0 ∧ t.j = 0 ∧ IsPermutation t.S ∧
      IsKsaResult key.length (fun m => BitVec.ofNat 8 (key.getD m 0)) t.S ∧
      t.responses.getLast? = some (answerWord 0 true 0 0) ∧
      ∀ i, ((∃ d, i = .apply d) ∨ (∃ a, i = .srd a) ∨ i = .ijrd) →
        ∃ u rw, exec i t = .next u ∧ u.responses = t.responses ++ [rw] ∧ answerCode rw = 0

/-- Log 5, the model's choice: an INIT word at the head of the port, with a legal KEYLEN and an unwritten key byte below
it, ends every run with KeyUnwritten, whatever waits behind it, a reset too; and only such a step faults. R136 leaves open
whether a reset would clear the fault. -/
def Obligations.FaultEndsRun : Prop :=
  (∀ (s : State) (cw : Word) (rest : List HostInput) (n : Nat),
    s.inputs = .command cw :: rest → decode Config.cmdV1 cw = .command .init →
    5 ≤ s.KEYLEN.toNat → s.KEYLEN.toNat ≤ 256 →
    (∃ m : Nat, m < s.KEYLEN.toNat ∧ s.keyAt (BitVec.ofNat 8 m) = none) →
    Host.Core.run Sys2Proof.core (n + 1) s = .fault .keyUnwritten) ∧
  (∀ (s : State) (f : Fault), step s = .fault f → f = .keyUnwritten ∧
    ∃ cw rest, s.inputs = .command cw :: rest ∧ decode Config.cmdV1 cw = .command .init ∧
      5 ≤ s.KEYLEN.toNat ∧ s.KEYLEN.toNat ≤ 256 ∧
      ∃ m : Nat, m < s.KEYLEN.toNat ∧ s.keyAt (BitVec.ofNat 8 m) = none)
end

