-- ==== Sys2Proof/Laws/Assembly.lean ====
section
/-! SUPPORT. The laws of an assembly line's text (30_encoding.md R71): a digit's value, blanks at the ends, pieces between commas. -/

namespace Sys2Proof.Machine

/-- A digit's character has its value, and is no character that parts a line. -/
theorem digitValue_of_digitText {base d : Nat} {ch : Char} (hb : base ≤ 16) (h : DigitText base d ch) :
    digitValue base ch = some d ∧ ch ≠ ' ' ∧ ch ≠ ',' ∧ ch ≠ 'x' := by
  have value : ∀ d, d < 16 → ∀ b, b < 17 → d < b →
      digitValue b d.digitChar = some d ∧ digitValue b d.digitChar.toUpper = some d := by decide
  have other : ∀ d, d < 16 → (d.digitChar ≠ ' ' ∧ d.digitChar ≠ ',' ∧ d.digitChar ≠ 'x') ∧
      (d.digitChar.toUpper ≠ ' ' ∧ d.digitChar.toUpper ≠ ',' ∧ d.digitChar.toUpper ≠ 'x') := by decide
  obtain ⟨h1, rfl | rfl⟩ := h
  · exact ⟨(value d (by omega) base (by omega) h1).1, (other d (by omega)).1⟩
  · exact ⟨(value d (by omega) base (by omega) h1).2, (other d (by omega)).2⟩

theorem dropWhile_space {text : List Char} (h : ∀ ch ∈ text, ch ≠ ' ') : text.dropWhile (· == ' ') = text := by
  cases text with
  | nil => rfl
  | cons ch rest => rw [List.dropWhile, beq_eq_false_iff_ne.2 (h ch (by simp))]

/-- A text without blanks stays. -/
theorem trimSpaces_of_no_space {text : List Char} (h : ∀ ch ∈ text, ch ≠ ' ') : trimSpaces text = text := by
  simp [trimSpaces, dropWhile_space h, dropWhile_space (text := text.reverse) (by simpa using h)]

/-- A blank in front goes. -/
theorem trimSpaces_space_cons (text : List Char) : trimSpaces (' ' :: text) = trimSpaces text := by
  simp [trimSpaces, List.dropWhile]

/-- A text that begins with no blank and ends in a stretch without one stays. -/
theorem trimSpaces_of_ends {first : Char} (middle : List Char) {last : List Char} (hf : first ≠ ' ') (hne : last ≠ [])
    (h : ∀ ch ∈ last, ch ≠ ' ') : trimSpaces (first :: middle ++ last) = first :: middle ++ last := by
  obtain ⟨p, q, hq⟩ : ∃ p q, last.reverse = p :: q := List.exists_cons_of_ne_nil (by simpa using hne)
  have hp : p ≠ ' ' := h p (by rw [← List.mem_reverse, hq]; simp)
  have e : last = q.reverse ++ [p] := by simpa using congrArg List.reverse hq
  simp only [trimSpaces, List.cons_append, List.dropWhile, beq_eq_false_iff_ne.2 hf, List.reverse_cons,
    List.reverse_append, hq, beq_eq_false_iff_ne.2 hp]
  simp [e]

/-- A text without commas is one piece. -/
theorem splitCommas_of_no_comma {text : List Char} (h : ∀ ch ∈ text, ch ≠ ',') : splitCommas text = [text] := by
  induction text with
  | nil => rfl
  | cons ch rest ih => simp [splitCommas, h ch (by simp), ih fun c hc => h c (by simp [hc])]

/-- The first comma ends the first piece. -/
theorem splitCommas_append_comma {piece : List Char} (rest : List Char) (h : ∀ ch ∈ piece, ch ≠ ',') :
    splitCommas (piece ++ ',' :: rest) = piece :: splitCommas rest := by
  induction piece with
  | nil => simp [splitCommas]
  | cons ch piece ih => simp [splitCommas, h ch (by simp), ih fun c hc => h c (by simp [hc])]

end Sys2Proof.Machine
end

