-- ==== Sys2Proof/Laws/Decode.lean ====
section
/-! SUPPORT. The fields of a composed command word (30_encoding.md R61), and a word as its fields. -/

namespace Sys2Proof

/-- A command word as a number: `OP * 2^28 + ARG * 2^16 + DATA`. -/
theorem commandWord_toNat (op : BitVec 4) (arg : KeyLength) (data : Byte) :
    (commandWord op arg data).toNat = op.toNat * 2 ^ 28 + arg.toNat * 2 ^ 16 + data.toNat := by
  have h0 := data.isLt
  have h1 := arg.isLt
  simp only [commandWord, BitVec.toNat_append]
  rw [← Nat.shiftLeft_add_eq_or_of_lt h0, ← Nat.shiftLeft_add_eq_or_of_lt (0#8).isLt,
    ← Nat.shiftLeft_add_eq_or_of_lt h1, ← Nat.shiftLeft_add_eq_or_of_lt (0#3).isLt]
  simp [Nat.shiftLeft_eq]; omega

@[simp] theorem indexArg_toNat (idx : Byte) : (indexArg idx).toNat = idx.toNat := by
  rw [indexArg, BitVec.toNat_append]; simp

@[simp] theorem opField_commandWord (op : BitVec 4) (arg : KeyLength) (data : Byte) :
    opField (commandWord op arg data) = op := by
  apply BitVec.eq_of_toNat_eq
  have h0 := data.isLt
  have h1 := arg.isLt
  have h2 := op.isLt
  rw [opField, BitVec.extractLsb'_toNat, commandWord_toNat, Nat.shiftRight_eq_div_pow]; omega

@[simp] theorem rsvAField_commandWord (op : BitVec 4) (arg : KeyLength) (data : Byte) :
    rsvAField (commandWord op arg data) = 0 := by
  apply BitVec.eq_of_toNat_eq
  have h0 := data.isLt
  have h1 := arg.isLt
  rw [rsvAField, BitVec.extractLsb'_toNat, commandWord_toNat, Nat.shiftRight_eq_div_pow]
  simp; omega

@[simp] theorem rsvBField_commandWord (op : BitVec 4) (arg : KeyLength) (data : Byte) :
    rsvBField (commandWord op arg data) = 0 := by
  apply BitVec.eq_of_toNat_eq
  have h0 := data.isLt
  rw [rsvBField, BitVec.extractLsb'_toNat, commandWord_toNat, Nat.shiftRight_eq_div_pow]
  simp; omega

@[simp] theorem argField_commandWord (op : BitVec 4) (arg : KeyLength) (data : Byte) :
    argField (commandWord op arg data) = arg := by
  apply BitVec.eq_of_toNat_eq
  have h0 := data.isLt
  have h1 := arg.isLt
  rw [argField, BitVec.extractLsb'_toNat, commandWord_toNat, Nat.shiftRight_eq_div_pow]; omega

@[simp] theorem dataField_commandWord (op : BitVec 4) (arg : KeyLength) (data : Byte) :
    dataField (commandWord op arg data) = data := by
  apply BitVec.eq_of_toNat_eq
  have h0 := data.isLt
  rw [dataField, BitVec.extractLsb'_toNat, commandWord_toNat, Nat.shiftRight_eq_div_pow]; omega

@[simp] theorem argTopField_commandWord_index (op : BitVec 4) (idx data : Byte) :
    argTopField (commandWord op (indexArg idx) data) = 0 := by
  apply BitVec.eq_of_toNat_eq
  have h0 := data.isLt
  have h1 := idx.isLt
  rw [argTopField, BitVec.extractLsb'_toNat, commandWord_toNat, indexArg_toNat, Nat.shiftRight_eq_div_pow]
  simp; omega

@[simp] theorem idxField_commandWord_index (op : BitVec 4) (idx data : Byte) :
    idxField (commandWord op (indexArg idx) data) = idx := by
  apply BitVec.eq_of_toNat_eq
  have h0 := data.isLt
  have h1 := idx.isLt
  rw [idxField, BitVec.extractLsb'_toNat, commandWord_toNat, indexArg_toNat, Nat.shiftRight_eq_div_pow]; omega

/-- A word whose two reserved fields are 0 is the command word of its three other fields (R61). -/
theorem commandWord_of_fields {cw : Word} (hA : rsvAField cw = 0) (hB : rsvBField cw = 0) :
    commandWord (opField cw) (argField cw) (dataField cw) = cw := by
  apply BitVec.eq_of_toNat_eq
  have hw := cw.isLt
  have hA := congrArg BitVec.toNat hA
  have hB := congrArg BitVec.toNat hB
  rw [commandWord_toNat]
  simp only [opField, argField, dataField, rsvAField, rsvBField, BitVec.extractLsb'_toNat,
    Nat.shiftRight_eq_div_pow, BitVec.ofNat_eq_ofNat, BitVec.toNat_ofNat] at *
  omega

/-- An ARG whose top bit is 0 is the ARG of its index (R61). -/
theorem indexArg_of_fields {cw : Word} (h : argTopField cw = 0) : indexArg (idxField cw) = argField cw := by
  apply BitVec.eq_of_toNat_eq
  have h := congrArg BitVec.toNat h
  rw [indexArg_toNat]
  simp only [argField, argTopField, idxField, BitVec.extractLsb'_toNat,
    Nat.shiftRight_eq_div_pow, BitVec.ofNat_eq_ofNat, BitVec.toNat_ofNat] at *
  omega

/-- commandIf answers a command exactly when the unused bits are clear. -/
theorem commandIf_eq_command {b : Bool} {i k : Instr} : commandIf b i = .command k ↔ b = true ∧ i = k := by
  cases b <;> simp [commandIf]

theorem inspectionIf_eq_command {c : Config} {b : Bool} {i k : Instr} :
    inspectionIf c b i = .command k ↔ c.pInspect = true ∧ b = true ∧ i = k := by
  cases h : c.pInspect <;> simp [inspectionIf, h, commandIf_eq_command]

/-- Everything the decoder can answer: a command word of the row whose OP it carries, with the row's fields and
its unused bits 0, or ILLEGAL. -/
theorem decode_command_cases {c : Config} {cw : Word} {i : Instr} (h : decode c cw = .command i) :
    rsvAField cw = 0 ∧ rsvBField cw = 0 ∧
    ((opField cw = 0 ∧ argField cw = 0 ∧ dataField cw = 0 ∧ i = .nop) ∨
     (opField cw = 1 ∧ argTopField cw = 0 ∧ i = .keywr (idxField cw) (dataField cw)) ∨
     (opField cw = 2 ∧ dataField cw = 0 ∧ i = .keylen (argField cw)) ∨
     (opField cw = 3 ∧ argField cw = 0 ∧ dataField cw = 0 ∧ i = .init) ∨
     (opField cw = 4 ∧ argField cw = 0 ∧ i = .apply (dataField cw)) ∨
     (opField cw = 5 ∧ c.pInspect = true ∧ argTopField cw = 0 ∧ dataField cw = 0 ∧ i = .srd (idxField cw)) ∨
     (opField cw = 6 ∧ c.pInspect = true ∧ argField cw = 0 ∧ dataField cw = 0 ∧ i = .ijrd) ∨
     (opField cw = 7 ∧ argField cw = 0 ∧ dataField cw = 0 ∧ i = .rdstat)) := by
  unfold decode at h
  split at h
  · cases h
  · rename_i hr
    push Not at hr
    refine ⟨hr.1, hr.2, ?_⟩
    have op (n : Nat) (hn : (opField cw).toNat = n) : opField cw = BitVec.ofNat 4 n := by
      rw [← hn]; simp
    split at h
    · simp [commandIf_eq_command] at h; exact .inl ⟨op _ ‹_›, h.1.1, h.1.2, h.2.symm⟩
    · simp [commandIf_eq_command] at h; exact .inr (.inl ⟨op _ ‹_›, h.1, h.2.symm⟩)
    · simp [commandIf_eq_command] at h; exact .inr (.inr (.inl ⟨op _ ‹_›, h.1, h.2.symm⟩))
    · simp [commandIf_eq_command] at h; exact .inr (.inr (.inr (.inl ⟨op _ ‹_›, h.1.1, h.1.2, h.2.symm⟩)))
    · simp [commandIf_eq_command] at h; exact .inr (.inr (.inr (.inr (.inl ⟨op _ ‹_›, h.1, h.2.symm⟩))))
    · simp [inspectionIf_eq_command] at h
      exact .inr (.inr (.inr (.inr (.inr (.inl ⟨op _ ‹_›, h.1, h.2.1.1, h.2.1.2, h.2.2.symm⟩)))))
    · simp [inspectionIf_eq_command] at h
      exact .inr (.inr (.inr (.inr (.inr (.inr (.inl ⟨op _ ‹_›, h.1, h.2.1.1, h.2.1.2, h.2.2.symm⟩))))))
    · simp [commandIf_eq_command] at h
      exact .inr (.inr (.inr (.inr (.inr (.inr (.inr ⟨op _ ‹_›, h.1.1, h.1.2, h.2.symm⟩))))))
    · cases h

end Sys2Proof
end

