-- ==== Sys2Proof/Laws/State.lean ====
section
/-! SUPPORT. One lemma per field per update of State, so that no proof unfolds a record update. -/

namespace Sys2Proof.Machine

/-! ## writeKey -/

@[simp] theorem State.writeKey_S (s : State) (a v : Byte) : (s.writeKey a v).S = s.S := rfl
@[simp] theorem State.writeKey_i (s : State) (a v : Byte) : (s.writeKey a v).i = s.i := rfl
@[simp] theorem State.writeKey_j (s : State) (a v : Byte) : (s.writeKey a v).j = s.j := rfl
@[simp] theorem State.writeKey_KEY (s : State) (a v : Byte) : (s.writeKey a v).KEY = s.KEY.write a.toNat v := rfl
@[simp] theorem State.writeKey_KEYLEN (s : State) (a v : Byte) : (s.writeKey a v).KEYLEN = s.KEYLEN := rfl
@[simp] theorem State.writeKey_READY (s : State) (a v : Byte) : (s.writeKey a v).READY = s.READY := rfl
@[simp] theorem State.writeKey_inputs (s : State) (a v : Byte) : (s.writeKey a v).inputs = s.inputs := rfl
@[simp] theorem State.writeKey_responses (s : State) (a v : Byte) : (s.writeKey a v).responses = s.responses := rfl

/-! ## writeKeylen -/

@[simp] theorem State.writeKeylen_S (s : State) (len : KeyLength) : (s.writeKeylen len).S = s.S := rfl
@[simp] theorem State.writeKeylen_i (s : State) (len : KeyLength) : (s.writeKeylen len).i = s.i := rfl
@[simp] theorem State.writeKeylen_j (s : State) (len : KeyLength) : (s.writeKeylen len).j = s.j := rfl
@[simp] theorem State.writeKeylen_KEY (s : State) (len : KeyLength) : (s.writeKeylen len).KEY = s.KEY := rfl
@[simp] theorem State.writeKeylen_KEYLEN (s : State) (len : KeyLength) : (s.writeKeylen len).KEYLEN = len := rfl
@[simp] theorem State.writeKeylen_READY (s : State) (len : KeyLength) : (s.writeKeylen len).READY = s.READY := rfl
@[simp] theorem State.writeKeylen_inputs (s : State) (len : KeyLength) : (s.writeKeylen len).inputs = s.inputs := rfl
@[simp] theorem State.writeKeylen_responses (s : State) (len : KeyLength) : (s.writeKeylen len).responses = s.responses := rfl

/-! ## withCipher -/

@[simp] theorem State.withCipher_S (s : State) (S : SArray) (i j : Byte) : (s.withCipher S i j).S = S := rfl
@[simp] theorem State.withCipher_i (s : State) (S : SArray) (i j : Byte) : (s.withCipher S i j).i = i := rfl
@[simp] theorem State.withCipher_j (s : State) (S : SArray) (i j : Byte) : (s.withCipher S i j).j = j := rfl
@[simp] theorem State.withCipher_KEY (s : State) (S : SArray) (i j : Byte) : (s.withCipher S i j).KEY = s.KEY := rfl
@[simp] theorem State.withCipher_KEYLEN (s : State) (S : SArray) (i j : Byte) : (s.withCipher S i j).KEYLEN = s.KEYLEN := rfl
@[simp] theorem State.withCipher_READY (s : State) (S : SArray) (i j : Byte) : (s.withCipher S i j).READY = s.READY := rfl
@[simp] theorem State.withCipher_inputs (s : State) (S : SArray) (i j : Byte) : (s.withCipher S i j).inputs = s.inputs := rfl
@[simp] theorem State.withCipher_responses (s : State) (S : SArray) (i j : Byte) : (s.withCipher S i j).responses = s.responses := rfl

/-! ## setReady -/

@[simp] theorem State.setReady_S (s : State) : (s.setReady).S = s.S := rfl
@[simp] theorem State.setReady_i (s : State) : (s.setReady).i = s.i := rfl
@[simp] theorem State.setReady_j (s : State) : (s.setReady).j = s.j := rfl
@[simp] theorem State.setReady_KEY (s : State) : (s.setReady).KEY = s.KEY := rfl
@[simp] theorem State.setReady_KEYLEN (s : State) : (s.setReady).KEYLEN = s.KEYLEN := rfl
@[simp] theorem State.setReady_READY (s : State) : (s.setReady).READY = true := rfl
@[simp] theorem State.setReady_inputs (s : State) : (s.setReady).inputs = s.inputs := rfl
@[simp] theorem State.setReady_responses (s : State) : (s.setReady).responses = s.responses := rfl

/-! ## respond -/

@[simp] theorem State.respond_S (s : State) (code : Code) (d0 d1 : Byte) : (s.respond code d0 d1).S = s.S := rfl
@[simp] theorem State.respond_i (s : State) (code : Code) (d0 d1 : Byte) : (s.respond code d0 d1).i = s.i := rfl
@[simp] theorem State.respond_j (s : State) (code : Code) (d0 d1 : Byte) : (s.respond code d0 d1).j = s.j := rfl
@[simp] theorem State.respond_KEY (s : State) (code : Code) (d0 d1 : Byte) : (s.respond code d0 d1).KEY = s.KEY := rfl
@[simp] theorem State.respond_KEYLEN (s : State) (code : Code) (d0 d1 : Byte) : (s.respond code d0 d1).KEYLEN = s.KEYLEN := rfl
@[simp] theorem State.respond_READY (s : State) (code : Code) (d0 d1 : Byte) : (s.respond code d0 d1).READY = s.READY := rfl
@[simp] theorem State.respond_inputs (s : State) (code : Code) (d0 d1 : Byte) : (s.respond code d0 d1).inputs = s.inputs := rfl
@[simp] theorem State.respond_responses (s : State) (code : Code) (d0 d1 : Byte) : (s.respond code d0 d1).responses = s.responses ++ [responseWord code s.READY d0 d1] := rfl

/-! ## raise -/

@[simp] theorem State.raise_S (s : State) (code : Code) : (s.raise code).S = s.S := rfl
@[simp] theorem State.raise_i (s : State) (code : Code) : (s.raise code).i = s.i := rfl
@[simp] theorem State.raise_j (s : State) (code : Code) : (s.raise code).j = s.j := rfl
@[simp] theorem State.raise_KEY (s : State) (code : Code) : (s.raise code).KEY = s.KEY := rfl
@[simp] theorem State.raise_KEYLEN (s : State) (code : Code) : (s.raise code).KEYLEN = s.KEYLEN := rfl
@[simp] theorem State.raise_READY (s : State) (code : Code) : (s.raise code).READY = s.READY := rfl
@[simp] theorem State.raise_inputs (s : State) (code : Code) : (s.raise code).inputs = s.inputs := rfl
@[simp] theorem State.raise_responses (s : State) (code : Code) : (s.raise code).responses = s.responses ++ [responseWord code s.READY 0 0] := rfl

/-! ## applyReset -/

@[simp] theorem State.applyReset_S (s : State) : (s.applyReset).S = State.reset.S := rfl
@[simp] theorem State.applyReset_i (s : State) : (s.applyReset).i = 0 := rfl
@[simp] theorem State.applyReset_j (s : State) : (s.applyReset).j = 0 := rfl
@[simp] theorem State.applyReset_KEY (s : State) : (s.applyReset).KEY = [] := rfl
@[simp] theorem State.applyReset_KEYLEN (s : State) : (s.applyReset).KEYLEN = 0 := rfl
@[simp] theorem State.applyReset_READY (s : State) : (s.applyReset).READY = false := rfl
@[simp] theorem State.applyReset_inputs (s : State) : (s.applyReset).inputs = s.inputs := rfl
@[simp] theorem State.applyReset_responses (s : State) : (s.applyReset).responses = s.responses := rfl

/-! ## The state after reset -/

@[simp] theorem State.reset_KEY : State.reset.KEY = [] := rfl
@[simp] theorem State.reset_KEYLEN : State.reset.KEYLEN = 0 := rfl
@[simp] theorem State.reset_READY : State.reset.READY = false := rfl
@[simp] theorem State.reset_inputs : State.reset.inputs = [] := rfl
@[simp] theorem State.reset_responses : State.reset.responses = [] := rfl

end Sys2Proof.Machine
end

