-- ==== Sys2Proof/Laws/Memory.lean ====
section
/-! SUPPORT. The laws of the key buffer: a read after a write, the canonical form, the check of R90. -/

namespace Sys2Proof.Machine

@[simp] theorem Memory.read_nil (a : Nat) : Memory.read [] a = none := rfl

/-- A read at the written index gives the written byte. -/
@[simp] theorem Memory.read_write_same (m : Memory) (a : Nat) (v : Byte) : (m.write a v).read a = some v := by
  induction m with
  | nil => simp [Memory.write, Memory.read]
  | cons c rest ih =>
    obtain ⟨b, w⟩ := c
    simp only [Memory.write]
    split
    · simp [Memory.read]
    · split
      · simp [Memory.read]
      · simp_all [Memory.read]

/-- A write leaves every other index alone. -/
theorem Memory.read_write_ne (m : Memory) {a b : Nat} (v : Byte) (h : b ≠ a) : (m.write a v).read b = m.read b := by
  induction m with
  | nil => simp [Memory.write, Memory.read, h, unlistedKey]
  | cons c rest ih =>
    obtain ⟨d, w⟩ := c
    simp only [Memory.write]
    split
    · simp [Memory.read, h]
    · split
      · simp_all [Memory.read]
      · simp [Memory.read, ih]

/-- What a write can list: the written cell, and cells that were listed before. -/
theorem Memory.mem_write {m : Memory} {a : Nat} {v : Byte} {c : Host.Cell} (h : c ∈ m.write a v) :
    c = (a, v) ∨ c ∈ m := by
  induction m with
  | nil => simpa [Memory.write] using h
  | cons d rest ih =>
    obtain ⟨b, w⟩ := d
    simp only [Memory.write] at h
    split at h
    · simpa using h
    · split at h
      · rcases List.mem_cons.1 h with h | h
        · exact .inl h
        · exact .inr (List.mem_cons_of_mem _ h)
      · rcases List.mem_cons.1 h with h | h
        · exact .inr (h ▸ List.mem_cons_self)
        · exact (ih h).imp id (List.mem_cons_of_mem _)

/-- A write keeps the canonical form. -/
theorem Memory.write_wf {m : Memory} {a : Nat} {v : Byte} (ha : a < 256) (h : m.wf) : (m.write a v).wf := by
  refine ⟨?_, fun c hc => (Memory.mem_write hc).elim (fun e => e ▸ ha) (h.2 c)⟩
  have hs := h.1
  clear h ha
  induction m with
  | nil => simp [Memory.write]
  | cons d rest ih =>
    obtain ⟨b, w⟩ := d
    simp only [List.map_cons, List.pairwise_cons] at hs
    simp only [Memory.write]
    split
    · simp only [List.map_cons, List.pairwise_cons, List.mem_cons, forall_eq_or_imp]
      exact ⟨⟨‹_›, fun x hx => by have := hs.1 x hx; omega⟩, hs⟩
    · split
      · subst_vars; simpa using hs
      · simp only [List.map_cons, List.pairwise_cons]
        refine ⟨fun x hx => ?_, ih hs.2⟩
        obtain ⟨c, hc, rfl⟩ := List.mem_map.1 hx
        rcases Memory.mem_write hc with rfl | hc
        · simp; omega
        · exact hs.1 _ (List.mem_map_of_mem hc)

theorem Memory.wf_nil : Memory.wf [] := by simp [Memory.wf]

theorem State.reset_key_wf : State.reset.KEY.wf := Memory.wf_nil

/-- KEYWR's write keeps the canonical form: its index is one byte. -/
theorem State.writeKey_wf {s : State} {a v : Byte} (h : s.KEY.wf) : (s.writeKey a v).KEY.wf :=
  Memory.write_wf a.isLt h

@[simp] theorem State.keyAt_writeKey_same (s : State) (a v : Byte) : (s.writeKey a v).keyAt a = some v := by
  simp [State.keyAt]

theorem State.keyAt_writeKey_ne (s : State) {a b : Byte} (v : Byte) (h : b ≠ a) :
    (s.writeKey a v).keyAt b = s.keyAt b := by
  simp only [State.keyAt, State.writeKey_KEY]
  exact Memory.read_write_ne _ _ fun e => h (BitVec.eq_of_toNat_eq e)

/-- The loop of R90 over KEY[0..L-1]. -/
theorem keyWritten_iff (key : Memory) (L : Nat) :
    keyWritten key L = true ↔ ∀ m, m < L → (key.read m).isSome = true := by
  simp [keyWritten]

theorem legalKeyLength_iff (len : KeyLength) : legalKeyLength len = true ↔ 5 ≤ len.toNat ∧ len.toNat ≤ 256 := by
  simp [legalKeyLength]

/-- Where the byte was written, the KSA reads it. -/
theorem ksaKeyByte_of_read {key : Memory} {L n : Nat} {v : Byte} (h : key.read (n % L) = some v) :
    ksaKeyByte key L n = v := by
  simp [ksaKeyByte, h]

end Sys2Proof.Machine
end

