-- ==== Sys2Proof/Laws/Response.lean ====
section
/-! SUPPORT. The response word (30_encoding.md R62): the block's composition is the number R62 gives, and its fields read back. -/

namespace Sys2Proof.Machine

/-- The number of the word the block composes: `CODE * 2^17 + READY * 2^16 + D1 * 2^8 + D0`. -/
theorem responseWord_toNat (code : Code) (ready : Bool) (d0 d1 : Byte) :
    (responseWord code ready d0 d1).toNat =
      (codeBits code).toNat * 2 ^ 17 + ready.toNat * 2 ^ 16 + d1.toNat * 2 ^ 8 + d0.toNat := by
  have h0 := d0.isLt
  have h1 := d1.isLt
  have hc := (codeBits code).isLt
  simp only [responseWord, BitVec.toNat_setWidth, BitVec.toNat_append]
  rw [← Nat.shiftLeft_add_eq_or_of_lt h0, ← Nat.shiftLeft_add_eq_or_of_lt h1,
    ← Nat.shiftLeft_add_eq_or_of_lt (BitVec.ofBool ready).isLt]
  cases ready <;> simp [Nat.shiftLeft_eq] <;> omega

theorem responseWord_eq (code : Code) (ready : Bool) (d0 d1 : Byte) :
    responseWord code ready d0 d1 = answerWord (codeBits code).toNat ready d0 d1 := by
  apply BitVec.eq_of_toNat_eq
  have h0 := d0.isLt
  have h1 := d1.isLt
  have hc := (codeBits code).isLt
  rw [responseWord_toNat, answerWord, BitVec.toNat_ofNat]
  cases ready <;> simp <;> omega

@[simp] theorem answerD0_responseWord (code : Code) (ready : Bool) (d0 d1 : Byte) :
    answerD0 (responseWord code ready d0 d1) = d0 := by
  apply BitVec.eq_of_toNat_eq
  have h0 := d0.isLt
  rw [answerD0, BitVec.extractLsb'_toNat, responseWord_toNat]
  simp [Nat.shiftRight_eq_div_pow]; omega

@[simp] theorem answerD1_responseWord (code : Code) (ready : Bool) (d0 d1 : Byte) :
    answerD1 (responseWord code ready d0 d1) = d1 := by
  apply BitVec.eq_of_toNat_eq
  have h0 := d0.isLt
  have h1 := d1.isLt
  rw [answerD1, BitVec.extractLsb'_toNat, responseWord_toNat]
  simp [Nat.shiftRight_eq_div_pow]; omega

@[simp] theorem answerReady_responseWord (code : Code) (ready : Bool) (d0 d1 : Byte) :
    answerReady (responseWord code ready d0 d1) = ready := by
  have h0 := d0.isLt
  have h1 := d1.isLt
  rw [answerReady, ← BitVec.testBit_toNat, responseWord_toNat, Nat.testBit_eq_decide_div_mod_eq]
  cases ready <;> simp <;> omega

@[simp] theorem answerCode_responseWord (code : Code) (ready : Bool) (d0 d1 : Byte) :
    answerCode (responseWord code ready d0 d1) = codeBits code := by
  apply BitVec.eq_of_toNat_eq
  have h0 := d0.isLt
  have h1 := d1.isLt
  have hc := (codeBits code).isLt
  rw [answerCode, BitVec.extractLsb'_toNat, responseWord_toNat]
  cases ready <;> simp [Nat.shiftRight_eq_div_pow] <;> omega

/-- respond, in the claims' terms. -/
theorem respond_eq_answered (s : State) (code : Code) (d0 d1 : Byte) :
    s.respond code d0 d1 = s.answered (codeBits code).toNat d0 d1 := by
  simp [State.respond, State.answered, responseWord_eq]

/-- raise, in the claims' terms: one more response with d0 = d1 = 0, and nothing else (R124). -/
theorem raise_eq_answered (s : State) (code : Code) : s.raise code = s.answered (codeBits code).toNat 0 0 :=
  respond_eq_answered s code 0 0

end Sys2Proof.Machine
end

