-- ==== Sys2Proof/Laws/SArray.lean ====
section
/-! SUPPORT. The laws of the permutation array: reads after writes and swaps, and that a swap keeps a permutation. -/

namespace Sys2Proof.Machine

@[simp] theorem sRead_sWrite_same (S : SArray) (a v : Byte) : sRead (sWrite S a v) a = v := by
  simp [sRead, sWrite, Vector.get_eq_getElem]

theorem sRead_sWrite_ne (S : SArray) {a b : Byte} (v : Byte) (h : b ≠ a) : sRead (sWrite S a v) b = sRead S b := by
  have : a.toNat ≠ b.toNat := fun e => h (BitVec.eq_of_toNat_eq e.symm)
  simp only [sRead, sWrite, Vector.get_eq_getElem]
  exact Vector.getElem_set_ne _ _ this

/-- An array is its entries. -/
theorem sArray_ext {S T : SArray} (h : ∀ a, sRead S a = sRead T a) : S = T := by
  apply Vector.ext
  intro k hk
  have := h (BitVec.ofNat 8 k)
  have e : k % 256 = k := Nat.mod_eq_of_lt hk
  simpa [sRead, Vector.get_eq_getElem, e] using this

/-- Every entry after a swap (R8). -/
theorem sRead_sSwap (S : SArray) (a b c : Byte) :
    sRead (sSwap S a b) c = if c = b then sRead S a else if c = a then sRead S b else sRead S c := by
  unfold sSwap
  split
  · subst_vars; simp
  · rw [sRead_sWrite_ne _ _ ‹_›]
    split
    · subst_vars; simp
    · rw [sRead_sWrite_ne _ _ ‹_›]

@[simp] theorem sRead_sSwap_right (S : SArray) (a b : Byte) : sRead (sSwap S a b) b = sRead S a := by
  simp [sRead_sSwap]

@[simp] theorem sRead_sSwap_left (S : SArray) (a b : Byte) : sRead (sSwap S a b) a = sRead S b := by
  rw [sRead_sSwap]; split <;> simp_all

theorem sRead_sSwap_ne (S : SArray) {a b c : Byte} (ha : c ≠ a) (hb : c ≠ b) :
    sRead (sSwap S a b) c = sRead S c := by
  simp [sRead_sSwap, ha, hb]

/-- A swap of an entry with itself changes nothing (R8). -/
@[simp] theorem sSwap_self (S : SArray) (a : Byte) : sSwap S a a = S :=
  sArray_ext fun c => by rw [sRead_sSwap]; split <;> simp_all

/-- A swap reads as the array read through the transposition of its two indices. -/
theorem sRead_sSwap_equiv (S : SArray) (a b c : Byte) : sRead (sSwap S a b) c = sRead S (Equiv.swap a b c) := by
  rw [sRead_sSwap, Equiv.swap_apply_def]
  split
  · split <;> simp_all
  · split <;> simp_all

theorem isPermutation_iff_bijective (S : SArray) : IsPermutation S ↔ Function.Bijective (sRead S) :=
  (Function.bijective_iff_existsUnique _).symm

/-- "every mutation is a pairwise swap, which cannot break the permutation property" (R22). -/
theorem isPermutation_sSwap {S : SArray} (a b : Byte) (h : IsPermutation S) : IsPermutation (sSwap S a b) := by
  rw [isPermutation_iff_bijective] at *
  have : sRead (sSwap S a b) = sRead S ∘ Equiv.swap a b := funext fun c => sRead_sSwap_equiv S a b c
  rw [this]
  exact h.comp (Equiv.bijective _)

end Sys2Proof.Machine
end

