-- ==== Sys2Proof/Laws/Exec.lean ====
section
/-! SUPPORT. What each shared operation and each meaning can do, said once: the KSA and its induction, nextByte, the cases of INIT, APPLY, SRD and IJRD, and the frame of every command and every step. -/

namespace Sys2Proof.Machine

/-! ## The KSA (R91) -/

/-- Reads after writing n to entry n for every n of a list, in order. -/
theorem sRead_foldl_identity (ns : List Nat) (S : SArray) (a : Byte) :
    sRead (ns.foldl (fun S n => sWrite S (BitVec.ofNat 8 n) (BitVec.ofNat 8 n)) S) a =
      if a.toNat ∈ ns.map (· % 256) then a else sRead S a := by
  induction ns generalizing S with
  | nil => simp
  | cons n ns ih =>
    rw [List.foldl_cons, ih]
    by_cases h : a = BitVec.ofNat 8 n
    · subst h; simp
    · have : a.toNat ≠ n % 256 := fun e => h (BitVec.eq_of_toNat_eq (by simpa using e))
      simp [sRead_sWrite_ne _ _ h, this]

/-- Both loops of the KSA run over 0 to 255 (R149). -/
theorem sIndices_eq (S : SArray) : sIndices S = List.range 256 := by
  rw [sIndices, Vector.size_toArray]

/-- Step 1 of R91: S is the identity, whatever it was. -/
@[simp] theorem sRead_ksaIdentity (S : SArray) (a : Byte) : sRead (ksaIdentity S) a = a := by
  have hm : a.toNat ∈ (sIndices S).map (· % 256) := by
    rw [sIndices_eq]
    exact List.mem_map.2 ⟨a.toNat, List.mem_range.2 a.isLt, Nat.mod_eq_of_lt a.isLt⟩
  exact (sRead_foldl_identity _ _ _).trans (if_pos hm)

/-- The identity does not depend on the array it overwrites. -/
theorem ksaIdentity_eq (S T : SArray) : ksaIdentity S = ksaIdentity T := sArray_ext fun a => by simp

/-- The KSA as 256 iterations from the identity and j = 0 (R91). -/
theorem ksa_eq (key : Memory) (L : Nat) (S : SArray) :
    ksa key L S = (List.range 256).foldl (ksaRound key L) (ksaIdentity S, 0) := by
  rw [ksa, sIndices_eq]

/-- Induction over the KSA's iterations: what holds of the identity and 0, and is kept by each iteration n of 0 to
255, holds at the end. `P n` speaks of the array and accumulator before iteration n. -/
theorem ksa_induction {key : Memory} {L : Nat} {S : SArray} (P : Nat → SArray × Byte → Prop)
    (h0 : P 0 (ksaIdentity S, 0)) (hs : ∀ n c, n < 256 → P n c → P (n + 1) (ksaRound key L c n)) :
    P 256 (ksa key L S) := by
  have go (k : Nat) (hk : k ≤ 256) : P k ((List.range k).foldl (ksaRound key L) (ksaIdentity S, 0)) := by
    induction k with
    | zero => simpa using h0
    | succ k ih =>
      rw [List.range_succ, List.foldl_append]
      exact hs k _ (by omega) (ih (by omega))
  rw [ksa_eq]
  exact go 256 (Nat.le_refl _)

/-- One iteration swaps, so it keeps a permutation. -/
theorem ksaRound_isPermutation {key : Memory} {L n : Nat} {c : SArray × Byte} (h : IsPermutation c.1) :
    IsPermutation (ksaRound key L c n).1 :=
  isPermutation_sSwap _ _ h

/-- Two keys with the same bytes 0 to L-1 have the same iteration. -/
theorem ksaRound_congr {key key' : Memory} {L : Nat} (h : ∀ m, m < L → key.read m = key'.read m) (hL : 0 < L)
    (c : SArray × Byte) (n : Nat) : ksaRound key L c n = ksaRound key' L c n := by
  simp [ksaRound, ksaKeyByte, h _ (Nat.mod_lt n hL)]

/-- The KSA depends on the key bytes 0 to L-1 alone, not on the array it overwrites (R94). -/
theorem ksa_congr {key key' : Memory} {L : Nat} (h : ∀ m, m < L → key.read m = key'.read m) (hL : 0 < L)
    (S T : SArray) : ksa key L S = ksa key' L T := by
  have hr : ksaRound key L = ksaRound key' L := funext fun c => funext fun n => ksaRound_congr h hL c n
  rw [ksa_eq, ksa_eq, ksaIdentity_eq S T, hr]

/-! ## nextByte (R100) -/

@[simp] theorem nextByte_i (s : State) : (nextByte s).1.i = s.i + 1 := rfl
@[simp] theorem nextByte_j (s : State) : (nextByte s).1.j = s.j + s.sAt (s.i + 1) := rfl
@[simp] theorem nextByte_S (s : State) : (nextByte s).1.S = sSwap s.S (nextByte s).1.i (nextByte s).1.j := rfl
@[simp] theorem nextByte_KEY (s : State) : (nextByte s).1.KEY = s.KEY := rfl
@[simp] theorem nextByte_KEYLEN (s : State) : (nextByte s).1.KEYLEN = s.KEYLEN := rfl
@[simp] theorem nextByte_READY (s : State) : (nextByte s).1.READY = s.READY := rfl
@[simp] theorem nextByte_inputs (s : State) : (nextByte s).1.inputs = s.inputs := rfl
@[simp] theorem nextByte_responses (s : State) : (nextByte s).1.responses = s.responses := rfl

/-- The keystream byte is read from the array as the swap left it. -/
theorem nextByte_byte (s : State) :
    (nextByte s).2 = (nextByte s).1.sAt ((nextByte s).1.sAt (nextByte s).1.i + (nextByte s).1.sAt (nextByte s).1.j) :=
  rfl

/-- The keystream byte and the next cipher state depend on S, i and j alone. -/
theorem nextByte_congr {s t : State} (h : SameCipher s t) :
    (nextByte t).2 = (nextByte s).2 ∧ SameCipher (nextByte s).1 (nextByte t).1 := by
  obtain ⟨hS, hi, hj⟩ := h
  simp [nextByte, SameCipher, State.withCipher, hS, hi, hj]

/-! ## What each meaning can do -/

/-- INIT with an illegal length (R92). -/
theorem execInit_illegalLength {s : State} (h : legalKeyLength s.KEYLEN = false) :
    execInit s = .next (s.raise .invalidKeyLength) := by
  simp [execInit, h]

/-- INIT with a legal length and an unwritten key byte (R136). -/
theorem execInit_unwritten {s : State} (h : legalKeyLength s.KEYLEN = true)
    (hw : keyWritten s.KEY s.KEYLEN.toNat = false) : execInit s = .fault .keyUnwritten := by
  simp [execInit, h, hw]

/-- The state a successful INIT responds from (R90): S the KSA's array, i = j = 0, READY = 1. -/
def State.initialized (s : State) : State := (s.withCipher (ksa s.KEY s.KEYLEN.toNat s.S).1 0 0).setReady

@[simp] theorem State.initialized_S (s : State) : s.initialized.S = (ksa s.KEY s.KEYLEN.toNat s.S).1 := rfl
@[simp] theorem State.initialized_i (s : State) : s.initialized.i = 0 := rfl
@[simp] theorem State.initialized_j (s : State) : s.initialized.j = 0 := rfl
@[simp] theorem State.initialized_KEY (s : State) : s.initialized.KEY = s.KEY := rfl
@[simp] theorem State.initialized_KEYLEN (s : State) : s.initialized.KEYLEN = s.KEYLEN := rfl
@[simp] theorem State.initialized_READY (s : State) : s.initialized.READY = true := rfl
@[simp] theorem State.initialized_inputs (s : State) : s.initialized.inputs = s.inputs := rfl
@[simp] theorem State.initialized_responses (s : State) : s.initialized.responses = s.responses := rfl

/-- INIT with a legal length and every key byte written (R90). -/
theorem execInit_ok {s : State} (h : legalKeyLength s.KEYLEN = true)
    (hw : keyWritten s.KEY s.KEYLEN.toNat = true) : execInit s = .next (s.initialized.respond .ok 0 0) := by
  simp [execInit, h, hw, State.initialized]

/-- INIT: these three cases and no other. -/
theorem execInit_cases (s : State) :
    (legalKeyLength s.KEYLEN = false ∧ execInit s = .next (s.raise .invalidKeyLength)) ∨
    (legalKeyLength s.KEYLEN = true ∧ keyWritten s.KEY s.KEYLEN.toNat = false ∧ execInit s = .fault .keyUnwritten) ∨
    (legalKeyLength s.KEYLEN = true ∧ keyWritten s.KEY s.KEYLEN.toNat = true ∧
      execInit s = .next (s.initialized.respond .ok 0 0)) := by
  cases hl : legalKeyLength s.KEYLEN
  · exact .inl ⟨rfl, execInit_illegalLength hl⟩
  · cases hw : keyWritten s.KEY s.KEYLEN.toNat
    · exact .inr (.inl ⟨rfl, rfl, execInit_unwritten hl hw⟩)
    · exact .inr (.inr ⟨rfl, rfl, execInit_ok hl hw⟩)

/-- A command that needs a cipher state: with READY = 0 it ends with NOT_READY (R122). -/
theorem exec_notReady {s : State} (h : s.READY = false) :
    (∀ d, execApply d s = .next (s.raise .notReady)) ∧ (∀ a, execSrd a s = .next (s.raise .notReady)) ∧
      execIjrd s = .next (s.raise .notReady) := by
  simp [execApply, execSrd, execIjrd, h]

theorem execApply_ready {s : State} (h : s.READY = true) (d : Byte) :
    execApply d s = .next ((nextByte s).1.respond .ok (d ^^^ (nextByte s).2) 0) := by
  simp [execApply, h]

theorem execSrd_ready {s : State} (h : s.READY = true) (a : Byte) :
    execSrd a s = .next (s.respond .ok (s.sAt a) 0) := by
  simp [execSrd, h]

theorem execIjrd_ready {s : State} (h : s.READY = true) : execIjrd s = .next (s.respond .ok s.i s.j) := by
  simp [execIjrd, h]

/-- Everything a command that goes on can do, line by line: the state it starts from, the command, the next state. -/
inductive ExecTo (s : State) : Instr → State → Prop where
  | nop : ExecTo s .nop (s.respond .ok 0 0)
  | keywr (a v : Byte) : ExecTo s (.keywr a v) ((s.writeKey a v).respond .ok 0 0)
  | keylen (len : KeyLength) : ExecTo s (.keylen len) ((s.writeKeylen len).respond .ok 0 0)
  | initRejects (h : legalKeyLength s.KEYLEN = false) : ExecTo s .init (s.raise .invalidKeyLength)
  | initSchedules (h : legalKeyLength s.KEYLEN = true) (hw : keyWritten s.KEY s.KEYLEN.toNat = true) :
      ExecTo s .init (s.initialized.respond .ok 0 0)
  | applyNotReady (d : Byte) (h : s.READY = false) : ExecTo s (.apply d) (s.raise .notReady)
  | applyReady (d : Byte) (h : s.READY = true) :
      ExecTo s (.apply d) ((nextByte s).1.respond .ok (d ^^^ (nextByte s).2) 0)
  | srdNotReady (a : Byte) (h : s.READY = false) : ExecTo s (.srd a) (s.raise .notReady)
  | srdReady (a : Byte) (h : s.READY = true) : ExecTo s (.srd a) (s.respond .ok (s.sAt a) 0)
  | ijrdNotReady (h : s.READY = false) : ExecTo s .ijrd (s.raise .notReady)
  | ijrdReady (h : s.READY = true) : ExecTo s .ijrd (s.respond .ok s.i s.j)
  | rdstat : ExecTo s .rdstat (s.respond .ok (keylenLow s.KEYLEN) (keylenHigh s.KEYLEN))

theorem next_inj {s t : State} (h : (Host.Outcome.next s : Host.Outcome State Fault Refusal) = .next t) : s = t := by
  injection h

/-- exec goes on exactly along these lines. -/
theorem exec_next_iff {i : Instr} {s t : State} : exec i s = .next t ↔ ExecTo s i t := by
  constructor
  · intro h
    cases i with
    | nop => cases h; exact .nop
    | keywr a v => cases h; exact .keywr a v
    | keylen len => cases h; exact .keylen len
    | init =>
      have h : execInit s = .next t := h
      rcases execInit_cases s with ⟨hl, e⟩ | ⟨_, _, e⟩ | ⟨hl, hw, e⟩ <;> rw [e] at h
      · exact next_inj h ▸ .initRejects hl
      · cases h
      · exact next_inj h ▸ .initSchedules hl hw
    | apply d =>
      have h : execApply d s = .next t := h
      cases hr : s.READY
      · rw [(exec_notReady hr).1] at h; exact next_inj h ▸ .applyNotReady d hr
      · rw [execApply_ready hr] at h; exact next_inj h ▸ .applyReady d hr
    | srd a =>
      have h : execSrd a s = .next t := h
      cases hr : s.READY
      · rw [(exec_notReady hr).2.1] at h; exact next_inj h ▸ .srdNotReady a hr
      · rw [execSrd_ready hr] at h; exact next_inj h ▸ .srdReady a hr
    | ijrd =>
      have h : execIjrd s = .next t := h
      cases hr : s.READY
      · rw [(exec_notReady hr).2.2] at h; exact next_inj h ▸ .ijrdNotReady hr
      · rw [execIjrd_ready hr] at h; exact next_inj h ▸ .ijrdReady hr
    | rdstat => cases h; exact .rdstat
  · intro h
    cases h with
    | nop | keywr | keylen | rdstat => rfl
    | initRejects hl => exact execInit_illegalLength hl
    | initSchedules hl hw => exact execInit_ok hl hw
    | applyNotReady d hr => exact (exec_notReady hr).1 d
    | applyReady d hr => exact execApply_ready hr d
    | srdNotReady a hr => exact (exec_notReady hr).2.1 a
    | srdReady a hr => exact execSrd_ready hr a
    | ijrdNotReady hr => exact (exec_notReady hr).2.2
    | ijrdReady hr => exact execIjrd_ready hr

/-- The one command that can stop, and why (R136). -/
theorem exec_fault_iff {i : Instr} {s : State} {f : Fault} : exec i s = .fault f ↔
    i = .init ∧ legalKeyLength s.KEYLEN = true ∧ keyWritten s.KEY s.KEYLEN.toNat = false ∧ f = .keyUnwritten := by
  constructor
  · intro h
    cases i with
    | nop | keywr | keylen | rdstat => cases h
    | init =>
      have h : execInit s = .fault f := h
      rcases execInit_cases s with ⟨_, e⟩ | ⟨hl, hw, e⟩ | ⟨_, _, e⟩ <;> rw [e] at h
      · cases h
      · cases h; exact ⟨rfl, hl, hw, rfl⟩
      · cases h
    | apply d => have h : execApply d s = .fault f := h; unfold execApply at h; split at h <;> cases h
    | srd a => have h : execSrd a s = .fault f := h; unfold execSrd at h; split at h <;> cases h
    | ijrd => have h : execIjrd s = .fault f := h; unfold execIjrd at h; split at h <;> cases h
  · rintro ⟨rfl, hl, hw, rfl⟩; exact execInit_unwritten hl hw

/-- No command is refused. -/
theorem exec_ne_refused (i : Instr) (s : State) (r : Refusal) : exec i s ≠ .refused r := by
  intro h
  cases i with
  | nop | keywr | keylen | rdstat => cases h
  | init =>
    have h : execInit s = .refused r := h
    rcases execInit_cases s with ⟨_, e⟩ | ⟨_, _, e⟩ | ⟨_, _, e⟩ <;> rw [e] at h <;> cases h
  | apply d => have h : execApply d s = .refused r := h; unfold execApply at h; split at h <;> cases h
  | srd a => have h : execSrd a s = .refused r := h; unfold execSrd at h; split at h <;> cases h
  | ijrd => have h : execIjrd s = .refused r := h; unfold execIjrd at h; split at h <;> cases h

/-- A word goes on as its command does, or is ILLEGAL and changes nothing but the responses (R123). -/
theorem runWord_next_cases {c : Config} {cw : Word} {s t : State} (h : runWord c cw s = .next t) :
    (∃ why, decode c cw = .illegal why ∧ t = s.raise .illegal) ∨
    (∃ i, decode c cw = .command i ∧ ExecTo s i t) := by
  unfold runWord at h
  split at h
  · exact .inr ⟨_, ‹_›, exec_next_iff.1 h⟩
  · exact .inl ⟨_, ‹_›, (next_inj h).symm⟩

/-- What a step that goes on can do: idle, run a word on the state without that input, or reset. -/
theorem stepWith_next_cases {c : Config} {s t : State} (h : stepWith c s = .next t) :
    (s.inputs = [] ∧ t = s) ∨
    (∃ cw rest, s.inputs = .command cw :: rest ∧ runWord c cw { s with inputs := rest } = .next t) ∨
    (∃ x rest, s.inputs = x :: rest ∧ (x = .reset ∨ ∃ cw, x = .resetDuring cw) ∧
      t = State.applyReset { s with inputs := rest }) := by
  unfold stepWith at h
  split at h
  · cases h; exact .inl ⟨‹_›, rfl⟩
  · exact .inr (.inl ⟨_, _, ‹_›, h⟩)
  · cases h; exact .inr (.inr ⟨_, _, ‹_›, .inl rfl, rfl⟩)
  · cases h; exact .inr (.inr ⟨_, _, ‹_›, .inr ⟨_, rfl⟩, rfl⟩)

end Sys2Proof.Machine
end

