-- ==== Sys2Proof/Laws/PerInstr.lean ====
section
/-! SUPPORT. A statement per command about its encoding (30_encoding.md R61, R65): the word carries the row's OP, and the two reserved fields are 0. -/

namespace Sys2Proof.Laws.Reserved

/-- OP of each row of R65. -/
def opcode : Instr → BitVec 4
  | .nop => 0x0
  | .keywr _ _ => 0x1
  | .keylen _ => 0x2
  | .init => 0x3
  | .apply _ => 0x4
  | .srd _ => 0x5
  | .ijrd => 0x6
  | .rdstat => 0x7

/-- The word of a command carries its row's OP, and RSV_A and RSV_B are 0 (R61, R65). -/
def Statement (i : Instr) : Prop :=
  opField (encode i) = opcode i ∧ rsvAField (encode i) = 0 ∧ rsvBField (encode i) = 0

theorem every (i : Instr) : Statement i := by cases i <;> simp [Statement, encode, opcode]

theorem nop : Statement .nop := every _
theorem keywr (idx data : Byte) : Statement (.keywr idx data) := every _
theorem keylen (len : KeyLength) : Statement (.keylen len) := every _
theorem init : Statement .init := every _
theorem apply (data : Byte) : Statement (.apply data) := every _
theorem srd (idx : Byte) : Statement (.srd idx) := every _
theorem ijrd : Statement .ijrd := every _
theorem rdstat : Statement .rdstat := every _

end Sys2Proof.Laws.Reserved
end

