-- ==== Sys2Proof/Tests/Slice0.lean ====
section
/-! SUPPORT. Small tests, their expected results from the spec's examples and tables (95_test_vectors.md, the Example lines of the rules), and a witness for the hypotheses of each statement. -/

namespace Sys2Proof.Tests

open Sys2Proof Sys2Proof.Machine

/-! ## Helpers -/

/-- The last response of a step that went on. -/
def lastAnswer : Host.Outcome State Fault Refusal → Option Word
  | .next t => t.responses.getLast?
  | _ => none

/-- A field of the state a step went on to. -/
def got {α : Type} (f : State → α) : Host.Outcome State Fault Refusal → Option α
  | .next t => some (f t)
  | _ => none

/-- A state with a cipher state: S the identity, i = j = 0. -/
def identityReady : State := { State.reset with READY := true, S := ksaIdentity State.reset.S }

/-- The key 0102030405 loaded, not yet scheduled. -/
def key5 : State := { State.reset with KEY := [(0, 1), (1, 2), (2, 3), (3, 4), (4, 5)], KEYLEN := 5 }

/-- The longest key, 00 01 … ff, loaded (95_test_vectors.md P4). -/
def key256 : State :=
  { State.reset with KEY := (List.range 256).map fun n => (n, BitVec.ofNat 8 n), KEYLEN := 256 }

/-- The state reset, with a KEYLEN. -/
def withLen (len : KeyLength) : State := { State.reset with KEYLEN := len }

/-- The state reset, with these host inputs waiting. -/
def withInputs (inputs : List HostInput) : State := { State.reset with inputs := inputs }

/-! ## WellFormed: an ill-formed term for each check (R71, R72, R113) -/

theorem test_wf_srd_needs_inspect :
    (Instr.srd 0).wellFormed Config.secure = false ∧ (Instr.srd 0).wellFormed Config.cmdV1 = true := by decide
theorem test_wf_ijrd_needs_inspect :
    Instr.ijrd.wellFormed Config.secure = false ∧ Instr.ijrd.wellFormed Config.cmdV1 = true := by decide
theorem test_wf_keywr_idx : (Asm.keywr 256 0).wellFormed = false ∧ (Asm.keywr 255 255).wellFormed = true := by decide
theorem test_wf_keywr_data : (Asm.keywr 0 256).wellFormed = false := by decide
theorem test_wf_keylen : (Asm.keylen 512).wellFormed = false ∧ (Asm.keylen 511).wellFormed = true := by decide
theorem test_wf_apply : (Asm.apply 256).wellFormed = false ∧ (Asm.apply 255).wellFormed = true := by decide
theorem test_wf_srd : (Asm.srd 256).wellFormed = false ∧ (Asm.srd 255).wellFormed = true := by decide
theorem test_wf_loadkey_length : (Asm.loadkey (List.replicate 257 0)).wellFormed = false ∧
    (Asm.loadkey (List.replicate 256 0)).wellFormed = true := by decide +kernel
theorem test_wf_loadkey_byte : (Asm.loadkey [0, 256]).wellFormed = false := by decide
theorem test_wf_initkey_length : (Asm.initkey (List.replicate 257 0)).wellFormed = false := by decide +kernel
theorem test_wf_initkey_byte : (Asm.initkey [1, 2, 3, 4, 256]).wellFormed = false := by decide
theorem test_wf_applybuf : (Asm.applybuf [0, 256]).wellFormed = false ∧ (Asm.applybuf []).wellFormed = true := by decide

/-! ## Decoding: the words of R65's patterns, written out bit by bit, one row after another -/

theorem test_decode_nop :
    decode Config.cmdV1 0b0000_000_0_0000_0000_0000_0000_0000_0000 = .command .nop := by decide
theorem test_decode_keywr :
    decode Config.cmdV1 0b0001_000_0_0000_0100_0000_0000_0000_0101 = .command (.keywr 4 0x05) := by decide
theorem test_decode_keylen :
    decode Config.cmdV1 0b0010_000_1_0000_0001_0000_0000_0000_0000 = .command (.keylen 257) := by decide
theorem test_decode_init :
    decode Config.cmdV1 0b0011_000_0_0000_0000_0000_0000_0000_0000 = .command .init := by decide
theorem test_decode_apply :
    decode Config.cmdV1 0b0100_000_0_0000_0000_0000_0000_0100_1000 = .command (.apply 0x48) := by decide
theorem test_decode_srd :
    decode Config.cmdV1 0b0101_000_0_1111_1111_0000_0000_0000_0000 = .command (.srd 255) := by decide
theorem test_decode_ijrd :
    decode Config.cmdV1 0b0110_000_0_0000_0000_0000_0000_0000_0000 = .command .ijrd := by decide
theorem test_decode_rdstat :
    decode Config.cmdV1 0b0111_000_0_0000_0000_0000_0000_0000_0000 = .command .rdstat := by decide

/-- The ILLEGAL rows of 95_test_vectors.md 2.1. -/
theorem test_illegal_words :
    ([0x00000001, 0x11000000, 0x10000100, 0x20050001, 0x30000100, 0x32000000, 0x40010000, 0x50000001, 0x72000000,
      0x80000000, 0x90000000, 0xFFFFFFFF].all fun w =>
        match decode Config.cmdV1 w with | .illegal _ => true | .command _ => false) = true := by decide

/-- 95_test_vectors.md 2.1, last row: SRD in a build with P_INSPECT = 0. -/
theorem test_secure_srd : decode Config.secure 0x50030000 = .illegal .inspectionAbsent := by decide

/-- The examples of R81, R82, R110: the encoder's words. -/
theorem test_encode : [encode (.keywr 4 5), encode (.keylen 5), encode (.keylen 256), encode (.srd 3)] =
    [0x10040005, 0x20050000, 0x21000000, 0x50030000] := by decide

/-- LOADKEY's words, 95_test_vectors.md P2. -/
theorem test_assemble_loadkey : assemble (.loadkey [1, 2, 3, 4, 5]) =
    some [0x10000001, 0x10010002, 0x10020003, 0x10030004, 0x10040005, 0x20050000] := by decide

/-- R71 and 95_test_vectors.md P2: lines of text, and operands out of range, missing or malformed. -/
theorem test_assemble_text : assembleText "KEYWR 4, 0x05".toList = some [0x10040005] ∧
    assembleText "LOADKEY 0x01, 0x02, 0x03, 0x04, 0x05".toList =
      some [0x10000001, 0x10010002, 0x10020003, 0x10030004, 0x10040005, 0x20050000] ∧
    assembleText "APPLY 0x6C".toList = some [0x4000006C] ∧ assembleText "KEYLEN 512".toList = none ∧
    assembleText "APPLY".toList = none ∧ assembleText "APPLY 0x".toList = none := by decide

/-! ## One step of each command -/

/-- R80's example. -/
theorem test_nop : lastAnswer (exec .nop identityReady) = some 0x00010000 := by decide +kernel
/-- R81's example: the answer and the byte. -/
theorem test_keywr : lastAnswer (exec (.keywr 4 0x05) State.reset) = some 0x00000000 ∧
    got (fun t => t.keyAt 4) (exec (.keywr 4 0x05) State.reset) = some (some 5) := by decide
/-- KEY stays sorted when a lower index is written later, and a rewrite replaces (R81). -/
theorem test_keywr_order : got (fun t => t.KEY) (exec (.keywr 0 9) { key5 with KEY := [(1, 2), (3, 4)] }) =
    some [(0, 9), (1, 2), (3, 4)] ∧ got (fun t => t.KEY) (exec (.keywr 3 7) { key5 with KEY := [(1, 2), (3, 4)] }) =
    some [(1, 2), (3, 7)] := by decide
/-- 95_test_vectors.md 2.2: KEYLEN 257 is accepted. -/
theorem test_keylen : got (fun t => t.KEYLEN) (exec (.keylen 257) State.reset) = some 257 := by decide
/-- 95_test_vectors.md 2.3: after INIT with key 0102030405, the answer, S[0..7] and S[251..255], i, j. -/
theorem test_init_key5 :
    got (fun t => (t.responses, [0, 1, 2, 3, 4, 5, 6, 7, 251, 252, 253, 254, 255].map t.sAt, t.i, t.j, t.READY))
      (exec .init key5) =
    some ([0x00010000], [0x01, 0x03, 0x08, 0xc9, 0x15, 0x1b, 0x23, 0x43, 0xc5, 0xc1, 0x09, 0xba, 0x58], 0, 0, true) := by
  decide +kernel
/-- 95_test_vectors.md 2.3: the length check at 4, 257, 0 and 511, and the fault at 5 with KEY unwritten. -/
theorem test_init_lengths :
    [4, 257, 0, 511].map (fun len => lastAnswer (exec .init (withLen len))) =
      [some 0x00020000, some 0x00020000, some 0x00020000, some 0x00020000] ∧
    exec .init (withLen 5) = .fault .keyUnwritten := ⟨by decide, rfl⟩
/-- 95_test_vectors.md 2.4, APPLY 1: S[1] = 3, S[3] = 201 before, S[204] = 0xb2 (2.3's table); t = 204. -/
theorem test_apply_first :
    got (fun t => (t.responses, t.i, t.j, t.sAt 1, t.sAt 3)) (exec (.apply 0x00)
      { identityReady with S := sWrite (sWrite (sWrite identityReady.S 1 3) 3 201) 204 0xb2 }) =
    some ([0x000100B2], 1, 3, 201, 3) := by decide +kernel
/-- R100's corner i = j (no swap, K = S[2 × S[i]]), with i wrapping from 255 to 0: here i = j = 0, S[0] = 0 gives S[0]. -/
theorem test_apply_wraps_equal : got (fun t => (t.responses, t.i, t.j, t.sAt 0)) (exec (.apply 0xFF)
    { identityReady with i := 255, j := 0 }) = some ([0x000100FF], 0, 0, 0) := by decide +kernel
/-- 95_test_vectors.md 2.5: SRD after reset, and an entry of a known array. -/
theorem test_srd : lastAnswer (exec (.srd 0) State.reset) = some 0x00040000 ∧
    lastAnswer (exec (.srd 3) { identityReady with S := sWrite identityReady.S 3 0xC9 }) = some 0x000100C9 := by
  decide +kernel
/-- 95_test_vectors.md 2.5: IJRD after 16 APPLY (i = 16, j = 97), and after reset. -/
theorem test_ijrd : lastAnswer (exec .ijrd { identityReady with i := 16, j := 97 }) = some 0x00016110 ∧
    lastAnswer (exec .ijrd State.reset) = some 0x00040000 := by decide +kernel
/-- R112's examples: after reset, and after KEYLEN 257. -/
theorem test_rdstat : lastAnswer (exec .rdstat State.reset) = some 0x00000000 ∧
    lastAnswer (exec .rdstat (withLen 257)) = some 0x00000101 := by decide

/-! ## The port -/

/-- 95_test_vectors.md 2.6: an ILLEGAL opcode, and ILLEGAL beats NOT_READY. -/
theorem test_step_illegal : lastAnswer (step (withInputs [.command 0x90000000])) = some 0x00060000 ∧
    lastAnswer (step (withInputs [.command 0x40010000])) = some 0x00060000 := by decide
/-- With READY = 1 the answer carries it (95_test_vectors.md P3: 0x00070000). -/
theorem test_step_illegal_ready :
    lastAnswer (step { identityReady with inputs := [.command 0x80000000] }) = some 0x00070000 := by decide +kernel
/-- A row placed with withFetchWord is the next thing step runs. -/
theorem test_fetch : got (fun t => (t.KEYLEN, t.inputs)) (step (State.reset.withFetchWord 32 0x20050000)) =
    some (5, []) ∧ decodeTableWord 32 0x20050000 = some (.keylen 5) := by decide
/-- Reset during an INIT (R141): no answer, READY = 0, KEY unwritten, KEYLEN = 0. -/
theorem test_reset_during : got (fun t => (t.responses, t.READY, t.KEY, t.KEYLEN))
    (step { key5 with READY := true, inputs := [.resetDuring 0x30000000] }) = some ([], false, [], 0) := by decide

/-! ## Witnesses: concrete states and operands that meet each statement's hypotheses -/

theorem key5_loaded : KeyLoaded key5 fun m => BitVec.ofNat 8 (m + 1) := by
  unfold KeyLoaded; decide
theorem key256_loaded : KeyLoaded key256 fun m => BitVec.ofNat 8 m := by
  unfold KeyLoaded; decide +kernel
theorem identityReady_inv : identityReady.Inv where
  key_wf := Memory.wf_nil
  ready_permutation _ v := ⟨v, by simp [identityReady], fun a h => by simpa [identityReady] using h⟩

theorem witness_DecodeEncodeRoundTrip : (Instr.srd 255).wellFormed Config.cmdV1 = true ∧
    Instr.rdstat.wellFormed Config.secure = true := by decide
theorem witness_EncodeDecodeRoundTrip : decode Config.cmdV1 0x50030000 = .command (.srd 3) := by decide
theorem witness_OpcodeMapMatchesMasks : 8 ≤ ((0x80000000 : Word).extractLsb' 28 4).toNat ∧
    Config.secure.pInspect = false ∧ (0x50FF0000 : Word) &&& 0xFF00FFFF = 0x50000000 := by decide
theorem witness_SecureBuildHidesCipherState : Config.secure.pInspect = false ∧
    (0x50000000 : Word).extractLsb' 28 4 = 5 ∧ (0x60000000 : Word).extractLsb' 28 4 = 6 ∧
    (∃ t, runWord Config.secure 0x70000000 State.reset = .next t) ∧ (0x70000000 : Word).extractLsb' 28 4 ≠ 4 :=
  ⟨rfl, rfl, rfl, ⟨_, rfl⟩, by decide⟩
theorem witness_PseudoInstructionsExpand : (∀ k ∈ ([0, 255] : List Nat), k ≤ 255) ∧
    (∀ k ∈ List.replicate 257 0, k ≤ 255) := by decide +kernel
theorem witness_AssemblyTextSpellsWords : NumberText 250 "250".toList ∧ NumberText 5 "0x05".toList ∧
    NumberText 250 "0xFA".toList ∧ List.Forall₂ NumberText [250, 5] ["0xFA".toList, "0x05".toList] := by
  have h : NumberText 5 "0x05".toList := ⟨[0, 5], ['0', '5'], by decide, .inr ⟨by simp [DigitText], by decide, by decide⟩⟩
  have h' : NumberText 250 "0xFA".toList := ⟨[15, 10], ['F', 'A'], by decide, .inr ⟨by simp [DigitText]; decide, by decide, by decide⟩⟩
  exact ⟨⟨[2, 5, 0], _, by decide, .inl ⟨by simp [DigitText], by decide, rfl⟩⟩, h, h', .cons h' (.cons h .nil)⟩
theorem witness_StepRunsDecodedCommand : (withInputs [.command 0]).inputs = .command 0 :: [] ∧
    decode Config.cmdV1 0 = .command .nop ∧ decode Config.cmdV1 0x80000000 = .illegal .unassignedOpcode ∧
    decodeTableWord 32 0x60000000 = some .ijrd := by decide
theorem witness_IdleBlockKeepsState : State.reset.inputs = [] := rfl
theorem witness_StepTakesOldestInputOnly :
    (∃ t, stepWith Config.cmdV1 { State.reset with inputs := .command 0 :: [] } = .next t) ∧
    (∃ t, stepWith Config.cmdV1 { State.reset with inputs := .reset :: [.command 0] } = .next t) :=
  ⟨⟨_, rfl⟩, ⟨_, rfl⟩⟩
/-- Also of KeyStateWrittenOnlyByItsCommand, CipherStateWrittenOnlyByInitAndApply and ReadySetByInitClearedByReset. -/
theorem witness_ResponseWordFormat : ∃ t, runWord Config.cmdV1 0x10040005 State.reset = .next t ∧
    decode Config.cmdV1 0x10040005 = .command (.keywr 4 5) := ⟨_, rfl, rfl⟩
theorem witness_NopAnswersOk : (0x00000001 : Word).extractLsb' 28 4 = 0 ∧ (0x00000001 : Word) ≠ 0 := by decide
theorem witness_KeywrWritesOneKeyByte : (0x11000000 : Word).extractLsb' 28 4 = 1 ∧
    (0x11000000 : Word).extractLsb' 24 1 ≠ 0 ∧ key5.KEYLEN.toNat ≤ (5 : Byte).toNat ∧ (4 : Byte) ≠ 5 ∧
    ∃ u, exec .init key5 = .next u :=
  ⟨by decide, by decide, by decide, by decide, _, execInit_ok (by decide) (by decide)⟩
theorem witness_KeywrTakesEffect : KeyLoaded { key5 with KEY := key5.KEY.write (4 : Byte).toNat 9 }
    (fun m => if m = 4 then 9 else BitVec.ofNat 8 (m + 1)) ∧ (4 : Byte).toNat < key5.KEYLEN.toNat := by
  unfold KeyLoaded; decide
theorem witness_KeylenSetsKeyLength : (0x20050001 : Word).extractLsb' 28 4 = 2 ∧
    (0x20050001 : Word).extractLsb' 0 8 ≠ 0 := by decide
theorem witness_HasReservedBits : HasReservedBits 0x22000000 ∧ HasReservedBits 0x10000100 := by
  unfold HasReservedBits; decide
theorem witness_InitRejectsIllegalLength : (withLen 4).KEYLEN.toNat < 5 ∧ 256 < (withLen 257).KEYLEN.toNat ∧
    5 ≤ key5.KEYLEN.toNat ∧ key256.KEYLEN.toNat ≤ 256 ∧ ∃ t, exec .init key5 = .next t :=
  ⟨by decide, by decide, by decide, by decide, _, execInit_ok (by decide) (by decide)⟩
/-- Also of InitEstablishesPermutation, KeystreamContinuesAndIsCounted,
ApplyIsSelfInverse. -/
theorem witness_InitRunsKsaAndClearsCursors : (∃ key, KeyLoaded key5 key) ∧ ∃ key, KeyLoaded key256 key :=
  ⟨⟨_, key5_loaded⟩, ⟨_, key256_loaded⟩⟩
/-- The document's steps, followed one by one on functions: the array and accumulator before iteration n. -/
def documentKsa (L : Nat) (key : Nat → Byte) : Nat → (Byte → Byte) × Byte
  | 0 => (id, 0)
  | n + 1 =>
    let A := (documentKsa L key n).1
    let j := (documentKsa L key n).2 + A (BitVec.ofNat 8 n) + key (n % L)
    (fun a => if a = BitVec.ofNat 8 n then A j else if a = j then A (BitVec.ofNat 8 n) else A a, j)
theorem witness_KsaResultIsUnique (L : Nat) (key : Nat → Byte) : ∃ S, IsKsaResult L key S := by
  refine ⟨Vector.ofFn fun k => (documentKsa L key 256).1 (BitVec.ofNat 8 k), fun n => (documentKsa L key n).1,
    fun n => (documentKsa L key n).2, fun _ => rfl, rfl, fun n _ => ⟨rfl, ?_, ?_, ?_⟩, fun a => ?_⟩
  · simp [documentKsa]
  · simp only [documentKsa]; split <;> simp_all
  · intro a h1 h2; simp only [documentKsa] at h2 ⊢; simp [h1, h2]
  · simp [sRead, Vector.get_eq_getElem]
theorem witness_InitRunsKsaAndClearsCursors_clauses : (0x30000001 : Word).extractLsb' 28 4 = 3 ∧
    (0x30000001 : Word) ≠ 0x30000000 ∧ (withLen 4).KEYLEN.toNat < 5 ∧ 256 < (withLen 257).KEYLEN.toNat ∧
    5 ≤ (withLen 5).KEYLEN.toNat ∧ (withLen 256).KEYLEN.toNat ≤ 256 ∧ (withLen 256).keyAt (BitVec.ofNat 8 255) = none := by
  decide
theorem witness_InitDependsOnKeyAlone : KeyLoaded key5 (fun m => BitVec.ofNat 8 (m + 1)) ∧
    KeyLoaded { key5 with READY := true, j := 9, KEY := key5.KEY ++ [(200, 7)] } (fun m => BitVec.ofNat 8 (m + 1)) := by
  unfold KeyLoaded; decide
theorem witness_InitFaultsOnUnwrittenKey : exec .init (withLen 5) = .fault .keyUnwritten ∧
    step { withLen 256 with inputs := [.command 0x30000000] } = .fault .keyUnwritten ∧
    ∀ x ∈ ({ withLen 256 with inputs := [.command 0x30000000] } : State).inputs, ∃ cw, x = .command cw :=
  ⟨rfl, rfl, by simp⟩
/-- KEYLEN at both ends of its range, the unwritten byte the first and the last below it, a reset behind. -/
theorem witness_FaultEndsRun :
    decode Config.cmdV1 0x30000000 = .command .init ∧ 5 ≤ (withLen 5).KEYLEN.toNat ∧ (withLen 256).KEYLEN.toNat ≤ 256 ∧
    (withLen 5).keyAt (BitVec.ofNat 8 0) = none ∧ (withLen 256).keyAt (BitVec.ofNat 8 255) = none ∧
    (withInputs [.command 0x30000000, .reset]).inputs = .command 0x30000000 :: [.reset] ∧
    step { withLen 5 with inputs := [.command 0x30000000, .reset] } = .fault .keyUnwritten := by
  refine ⟨?_, ?_, ?_, ?_, ?_, rfl, rfl⟩ <;> decide
/-- Also of ApplyCombinesDataByte, ApplyBufferPreservesLength, KeyChangeWaitsForInit, SrdReadsOneEntry, IjrdReadsBothCursors. -/
theorem witness_ApplyStepsThePrga : identityReady.READY = true ∧ identityReady.Inv ∧ State.reset.READY = false :=
  ⟨rfl, identityReady_inv, rfl⟩
theorem witness_ApplyCombinesDataByte : (0x40010000 : Word).extractLsb' 28 4 = 4 ∧
    (0x40010000 : Word).extractLsb' 16 9 ≠ 0 := by decide
theorem witness_ApplyBufferPreservesLength : (∃ t, exec .init (withLen 4) = .next t ∧
    t.responses ≠ (withLen 4).responses ++ [answerWord 0 true 0 0]) ∧ ∃ t, exec .rdstat State.reset = .next t :=
  ⟨⟨_, rfl, by decide⟩, ⟨_, rfl⟩⟩
theorem witness_ApplyIsSelfInverse : SameCipher { State.reset with READY := true } { State.reset with READY := true, KEYLEN := 7 } :=
  ⟨rfl, rfl, rfl⟩
theorem witness_SrdReadsOneEntry : Config.cmdV1.pInspect = true ∧ (0x51000000 : Word).extractLsb' 28 4 = 5 ∧
    (0x51000000 : Word).extractLsb' 24 1 ≠ 0 ∧ (0x50000001 : Word).extractLsb' 0 8 ≠ 0 := by decide
theorem witness_IjrdReadsBothCursors : (0x60000001 : Word).extractLsb' 28 4 = 6 ∧ (0x60000001 : Word) ≠ 0x60000000 ∧
    ∃ t, exec .init key5 = .next t := ⟨by decide, by decide, _, execInit_ok (by decide) (by decide)⟩
theorem witness_RdstatReadsKeyLength : (0x72000000 : Word).extractLsb' 28 4 = 7 ∧ (0x72000000 : Word) ≠ 0x70000000 := by
  decide
/-- One answer of each code; also of ErrorsChangeNoState. -/
theorem witness_EachCodeHasOneCause :
    (∃ t, runWord Config.cmdV1 0x80000000 State.reset = .next t ∧ t.responses = [] ++ [0x00060000] ∧ answerCode 0x00060000 = 3) ∧
    (∃ t, runWord Config.cmdV1 0x60000000 State.reset = .next t ∧ t.responses = [] ++ [0x00040000] ∧ answerCode 0x00040000 = 2) ∧
    (∃ t, runWord Config.cmdV1 0x30000000 State.reset = .next t ∧ t.responses = [] ++ [0x00020000] ∧ answerCode 0x00020000 = 1) ∧
    (∀ a, (withLen 4).keyAt a = none) ∧ runWord Config.cmdV1 0x30000000 (withLen 5) = .fault .keyUnwritten :=
  ⟨⟨_, rfl, by decide, by decide⟩, ⟨_, rfl, by decide, by decide⟩, ⟨_, rfl, by decide, by decide⟩, fun _ => rfl, rfl⟩
theorem witness_IdempotentCommands : 5 ≤ key5.KEYLEN.toNat ∧ key5.KEYLEN.toNat ≤ 256 ∧ ∃ t, exec .init key5 = .next t :=
  ⟨by decide, by decide, _, execInit_ok (by decide) (by decide)⟩
theorem witness_ReadySetByInitClearedByReset :
    (∃ t, stepWith Config.cmdV1 { key5 with inputs := [.command 0x30000000] } = .next t ∧ key5.READY = false ∧ t.READY = true) ∧
    (∃ t, stepWith Config.cmdV1 { identityReady with inputs := [.reset] } = .next t ∧ identityReady.READY = true ∧ t.READY = false) ∧
    (∃ t, exec .init (withLen 257) = .next t ∧ t.responses ≠ [] ++ [answerWord 0 true 0 0]) :=
  ⟨⟨_, execInit_ok (s := key5) (by decide) (by decide), rfl, rfl⟩, ⟨_, rfl, rfl, rfl⟩, ⟨_, rfl, by decide⟩⟩
theorem witness_KeyNeverReturned : decode Config.cmdV1 0x70000000 ≠ .command .init ∧
    ∃ t, runWord Config.cmdV1 0x70000000 key5 = .next t := ⟨by decide, _, rfl⟩
theorem witness_KeyChangeWaitsForInit : ∀ i ∈ [Instr.keywr 0 9, Instr.keylen 6],
    (∃ a v, i = .keywr a v) ∨ ∃ l, i = .keylen l := by simp
theorem witness_UnreadyCipherStateIsUnobservable : SameButHidden key5 { key5 with i := 7, j := 9 } :=
  ⟨rfl, rfl, rfl, rfl, rfl, fun h => by cases h⟩
theorem ready_apply_goes_on (s : State) (h : s.READY = true) :
    ∃ t, stepWith Config.cmdV1 { s with inputs := [.command 0x40000000] } = .next t :=
  ⟨_, execApply_ready (s := { s with inputs := [] }) h 0⟩
theorem witness_StepKeepsPermutationInvariant : identityReady.Inv ∧
    ∃ t, stepWith Config.cmdV1 { identityReady with inputs := [.command 0x40000000] } = .next t :=
  ⟨identityReady_inv, ready_apply_goes_on identityReady rfl⟩
theorem witness_ResetStateValues : State.reset.READY = false ∧ State.reset.KEYLEN = 0 := ⟨rfl, rfl⟩
/-- Also of ResetEventKeepsPort. -/
theorem witness_ResetEventClearsBlock : (withInputs [.reset, .command 0]).inputs = .reset :: [.command 0] ∧
    (withInputs [.resetDuring 0x30000000]).inputs = .resetDuring 0x30000000 :: [] := ⟨rfl, rfl⟩
/-- Also of InitializeReachesReady: keys of 5 and of 256 bytes, the last byte 255. -/
theorem witness_LoadKeyFillsKeyBuffer : 5 ≤ [1, 2, 3, 4, 255].length ∧ (List.range 256).length ≤ 256 ∧
    (∀ k ∈ [1, 2, 3, 4, 255], k ≤ 255) ∧ ∀ k ∈ List.range 256, k ≤ 255 := by decide +kernel

/-- The per-command encoding statement, at one command of each operand shape. -/
theorem test_reserved_statement : Laws.Reserved.Statement (.keywr 255 255) ∧ Laws.Reserved.Statement (.keylen 511) :=
  ⟨Laws.Reserved.keywr _ _, Laws.Reserved.keylen _⟩

end Sys2Proof.Tests
end

section
/-! How a word, a step and a run of steps unfold, case by case: the equations behind `runWord`, `stepWith` and
`Host.Core.run`. -/

namespace Sys2Proof.Machine

theorem runWord_of_command {c : Config} {cw : Word} {i : Instr} (h : decode c cw = .command i) (s : State) :
    runWord c cw s = exec i s := by
  simp [runWord, h]

theorem runWord_of_illegal {c : Config} {cw : Word} {why : Illegal} (h : decode c cw = .illegal why) (s : State) :
    runWord c cw s = .next (s.raise .illegal) := by
  simp [runWord, h]

theorem stepWith_of_idle {c : Config} {s : State} (h : s.inputs = []) : stepWith c s = .next s := by
  simp [stepWith, h]

theorem stepWith_of_command {c : Config} {s : State} {cw : Word} {rest : List HostInput}
    (h : s.inputs = .command cw :: rest) : stepWith c s = runWord c cw { s with inputs := rest } := by
  simp [stepWith, h]

theorem stepWith_of_reset {c : Config} {s : State} {rest : List HostInput} (h : s.inputs = .reset :: rest) :
    stepWith c s = .next (State.applyReset { s with inputs := rest }) := by
  simp [stepWith, h]

theorem stepWith_of_resetDuring {c : Config} {s : State} {cw : Word} {rest : List HostInput}
    (h : s.inputs = .resetDuring cw :: rest) :
    stepWith c s = .next (State.applyReset { s with inputs := rest }) := by
  simp [stepWith, h]

@[simp] theorem run_zero (s : State) : Host.Core.run core 0 s = .next s := rfl

theorem run_succ_of_next {s t : State} (h : step s = .next t) (n : Nat) :
    Host.Core.run core (n + 1) s = Host.Core.run core n t := by
  have hs : core.step s = .next t := h
  simp [Host.Core.run, hs]

theorem run_succ_of_fault {s : State} {f : Fault} (h : step s = .fault f) (n : Nat) :
    Host.Core.run core (n + 1) s = .fault f := by
  have hs : core.step s = .fault f := h
  simp [Host.Core.run, hs]

theorem run_succ_of_refused {s : State} {r : Refusal} (h : step s = .refused r) (n : Nat) :
    Host.Core.run core (n + 1) s = .refused r := by
  have hs : core.step s = .refused r := h
  simp [Host.Core.run, hs]

end Sys2Proof.Machine
end

section
/-! What READY = 0 hides (10_state.md R32): each operation keeps two states alike but for hidden S, i and j, and so
does a command, a word, a step and a run. -/

namespace Sys2Proof.Machine

namespace SameButHidden

theorem respond {s t : State} (h : SameButHidden s t) (code : Code) (d0 d1 : Byte) :
    SameButHidden (s.respond code d0 d1) (t.respond code d0 d1) := by
  obtain ⟨hkey, hlen, hready, hin, hresp, hcipher⟩ := h
  exact ⟨hkey, hlen, hready, hin, by simp [hresp, hready], hcipher⟩

theorem raise {s t : State} (h : SameButHidden s t) (code : Code) : SameButHidden (s.raise code) (t.raise code) :=
  h.respond code 0 0

theorem writeKey {s t : State} (h : SameButHidden s t) (a v : Byte) :
    SameButHidden (s.writeKey a v) (t.writeKey a v) := by
  obtain ⟨hkey, hlen, hready, hin, hresp, hcipher⟩ := h
  exact ⟨by simp [hkey], hlen, hready, hin, hresp, hcipher⟩

theorem writeKeylen {s t : State} (h : SameButHidden s t) (len : KeyLength) :
    SameButHidden (s.writeKeylen len) (t.writeKeylen len) := by
  obtain ⟨hkey, _, hready, hin, hresp, hcipher⟩ := h
  exact ⟨hkey, rfl, hready, hin, hresp, hcipher⟩

/-- INIT makes the cipher states equal, whatever they were: it reads KEY and KEYLEN alone (R94). -/
theorem initialized {s t : State} (h : SameButHidden s t) : SameButHidden s.initialized t.initialized := by
  obtain ⟨hkey, hlen, _, hin, hresp, _⟩ := h
  have hS : t.initialized.S = s.initialized.S := by
    rw [State.initialized_S, State.initialized_S, hkey, hlen, ksa_eq, ksa_eq, ksaIdentity_eq t.S s.S]
  exact ⟨hkey, hlen, rfl, hin, hresp, fun _ => ⟨hS, rfl, rfl⟩⟩

theorem nextByte {s t : State} (h : SameButHidden s t) (hr : s.READY = true) :
    SameButHidden (nextByte s).1 (nextByte t).1 := by
  obtain ⟨hkey, hlen, hready, hin, hresp, hcipher⟩ := h
  exact ⟨hkey, hlen, hready, hin, hresp, fun _ => (nextByte_congr (hcipher hr)).2⟩

theorem withInputs {s t : State} (h : SameButHidden s t) (rest : List HostInput) :
    SameButHidden { s with inputs := rest } { t with inputs := rest } := by
  obtain ⟨hkey, hlen, hready, _, hresp, hcipher⟩ := h
  exact ⟨hkey, hlen, hready, rfl, hresp, hcipher⟩

theorem applyReset {s t : State} (h : SameButHidden s t) : SameButHidden s.applyReset t.applyReset := by
  obtain ⟨_, _, _, hin, hresp, _⟩ := h
  exact ⟨rfl, rfl, rfl, hin, hresp, fun _ => ⟨rfl, rfl, rfl⟩⟩

theorem execInit {s t : State} (h : SameButHidden s t) : SameOutcomeButHidden (execInit s) (execInit t) := by
  have ⟨hkey, hlen, _⟩ := h
  rcases execInit_cases s with ⟨hl, e⟩ | ⟨hl, hw, e⟩ | ⟨hl, hw, e⟩ <;> rw [← hlen] at hl
  · rw [e, execInit_illegalLength hl]; exact h.raise _
  · rw [← hkey, ← hlen] at hw
    rw [e, execInit_unwritten hl hw]; rfl
  · rw [← hkey, ← hlen] at hw
    rw [e, execInit_ok hl hw]; exact h.initialized.respond _ _ _

/-- A command that needs a cipher state either ends with NOT_READY in both states, or sees the same cipher state in
both. -/
theorem execApply {s t : State} (h : SameButHidden s t) (d : Byte) :
    SameOutcomeButHidden (execApply d s) (execApply d t) := by
  have ⟨_, _, hready, _, _, hcipher⟩ := h
  cases hr : s.READY <;> rw [hr] at hready
  · rw [(exec_notReady hr).1, (exec_notReady hready).1]; exact h.raise _
  · rw [execApply_ready hr, execApply_ready hready, (nextByte_congr (hcipher hr)).1]
    exact (h.nextByte hr).respond _ _ _

theorem execSrd {s t : State} (h : SameButHidden s t) (a : Byte) :
    SameOutcomeButHidden (execSrd a s) (execSrd a t) := by
  have ⟨_, _, hready, _, _, hcipher⟩ := h
  cases hr : s.READY <;> rw [hr] at hready
  · rw [(exec_notReady hr).2.1, (exec_notReady hready).2.1]; exact h.raise _
  · obtain ⟨hS, _, _⟩ := hcipher hr
    rw [execSrd_ready hr, execSrd_ready hready, State.sAt, State.sAt, hS]
    exact h.respond _ _ _

theorem execIjrd {s t : State} (h : SameButHidden s t) : SameOutcomeButHidden (execIjrd s) (execIjrd t) := by
  have ⟨_, _, hready, _, _, hcipher⟩ := h
  cases hr : s.READY <;> rw [hr] at hready
  · rw [(exec_notReady hr).2.2, (exec_notReady hready).2.2]; exact h.raise _
  · obtain ⟨_, hi, hj⟩ := hcipher hr
    rw [execIjrd_ready hr, execIjrd_ready hready, hi, hj]
    exact h.respond _ _ _

theorem execRdstat {s t : State} (h : SameButHidden s t) : SameOutcomeButHidden (execRdstat s) (execRdstat t) := by
  have ⟨_, hlen, _⟩ := h
  unfold Machine.execRdstat
  rw [hlen]
  exact h.respond _ _ _

theorem exec {s t : State} (h : SameButHidden s t) (i : Instr) : SameOutcomeButHidden (exec i s) (exec i t) := by
  cases i with
  | nop => exact h.respond _ _ _
  | keywr a v => exact (h.writeKey a v).respond _ _ _
  | keylen len => exact (h.writeKeylen len).respond _ _ _
  | init => exact h.execInit
  | apply d => exact h.execApply d
  | srd a => exact h.execSrd a
  | ijrd => exact h.execIjrd
  | rdstat => exact h.execRdstat

theorem runWord {s t : State} (h : SameButHidden s t) (c : Config) (cw : Word) :
    SameOutcomeButHidden (runWord c cw s) (runWord c cw t) := by
  cases hd : decode c cw with
  | command i => rw [runWord_of_command hd, runWord_of_command hd]; exact h.exec i
  | illegal why => rw [runWord_of_illegal hd, runWord_of_illegal hd]; exact h.raise _

theorem stepWith {s t : State} (h : SameButHidden s t) (c : Config) :
    SameOutcomeButHidden (stepWith c s) (stepWith c t) := by
  have ⟨_, _, _, hin, _⟩ := h
  cases hs : s.inputs with
  | nil =>
    rw [stepWith_of_idle hs, stepWith_of_idle (hin.trans hs)]; exact h
  | cons x rest =>
    have ht := hin.trans hs
    cases x with
    | command cw =>
      rw [stepWith_of_command hs, stepWith_of_command ht]; exact (h.withInputs rest).runWord c cw
    | reset =>
      rw [stepWith_of_reset hs, stepWith_of_reset ht]; exact (h.withInputs rest).applyReset
    | resetDuring cw =>
      rw [stepWith_of_resetDuring hs, stepWith_of_resetDuring ht]; exact (h.withInputs rest).applyReset

end SameButHidden

/-- Two outcomes that agree: both go on, or both stop for one reason. -/
theorem sameOutcomeButHidden_cases {a b : Host.Outcome State Fault Refusal} (h : SameOutcomeButHidden a b) :
    (∃ s t, a = .next s ∧ b = .next t ∧ SameButHidden s t) ∨ (∃ f, a = .fault f ∧ b = .fault f) ∨
      ∃ r, a = .refused r ∧ b = .refused r := by
  cases a with
  | next s =>
    cases b with
    | next t => exact .inl ⟨s, t, rfl, rfl, h⟩
    | fault | refused => exact h.elim
  | fault f =>
    cases b with
    | fault g => exact .inr (.inl ⟨f, rfl, congrArg _ (Eq.symm h)⟩)
    | next | refused => exact h.elim
  | refused r =>
    cases b with
    | refused q => exact .inr (.inr ⟨r, rfl, congrArg _ (Eq.symm h)⟩)
    | next | fault => exact h.elim

/-- Settles O39, by induction on the number of steps: each step keeps the two states alike (`SameButHidden.stepWith`),
and where it stops, it stops both for one reason. -/
theorem unreadyCipherStateIsUnobservable : Obligations.UnreadyCipherStateIsUnobservable := by
  unfold Obligations.UnreadyCipherStateIsUnobservable
  intro n
  induction n with
  | zero => exact fun s t h => h
  | succ n ih =>
    intro s t h
    have hstep : SameOutcomeButHidden (step s) (step t) := h.stepWith Config.cmdV1
    rcases sameOutcomeButHidden_cases hstep with ⟨s', t', hs, ht, h'⟩ | ⟨f, hs, ht⟩ | ⟨r, hs, ht⟩
    · rw [run_succ_of_next hs, run_succ_of_next ht]; exact ih s' t' h'
    · rw [run_succ_of_fault hs, run_succ_of_fault ht]; rfl
    · rw [run_succ_of_refused hs, run_succ_of_refused ht]; rfl

end Sys2Proof.Machine
end

section
/-! The invariant of 10_state.md R22: the KSA leaves a permutation, and every command, reset and step keeps
`State.Inv`; what reset leaves (R34). -/

namespace Sys2Proof.Machine

/-- The KSA's array is a permutation: the identity is one, and each iteration swaps. -/
theorem ksa_isPermutation (key : Memory) (L : Nat) (S : SArray) : IsPermutation (ksa key L S).1 :=
  ksa_induction (fun _ c => IsPermutation c.1) (fun v => by simp) fun _ _ _ h => ksaRound_isPermutation h

namespace State.Inv

/-- The invariant speaks of KEY, READY and S alone. -/
theorem congr {s t : State} (h : s.Inv) (hkey : t.KEY = s.KEY) (hready : t.READY = s.READY) (hS : t.S = s.S) :
    t.Inv where
  key_wf := hkey ▸ h.key_wf
  ready_permutation := fun hr => hS ▸ h.ready_permutation (hready ▸ hr)

theorem respond {s : State} (h : s.Inv) (code : Code) (d0 d1 : Byte) : (s.respond code d0 d1).Inv :=
  h.congr rfl rfl rfl

theorem raise {s : State} (h : s.Inv) (code : Code) : (s.raise code).Inv := h.congr rfl rfl rfl

theorem writeKey {s : State} (h : s.Inv) (a v : Byte) : (s.writeKey a v).Inv where
  key_wf := State.writeKey_wf h.key_wf
  ready_permutation := h.ready_permutation

theorem writeKeylen {s : State} (h : s.Inv) (len : KeyLength) : (s.writeKeylen len).Inv := h.congr rfl rfl rfl

theorem initialized {s : State} (h : s.Inv) : s.initialized.Inv where
  key_wf := h.key_wf
  ready_permutation := fun _ => ksa_isPermutation _ _ _

theorem nextByte {s : State} (h : s.Inv) : (nextByte s).1.Inv where
  key_wf := h.key_wf
  ready_permutation := fun hr => isPermutation_sSwap _ _ (h.ready_permutation hr)

theorem withInputs {s : State} (h : s.Inv) (rest : List HostInput) : State.Inv { s with inputs := rest } :=
  h.congr rfl rfl rfl

theorem execTo {s t : State} {i : Instr} (h : s.Inv) (ht : ExecTo s i t) : t.Inv := by
  cases ht with
  | nop | srdReady | ijrdReady | rdstat => exact h.respond _ _ _
  | initRejects | applyNotReady | srdNotReady | ijrdNotReady => exact h.raise _
  | keywr a v => exact (h.writeKey a v).respond _ _ _
  | keylen len => exact (h.writeKeylen len).respond _ _ _
  | initSchedules => exact h.initialized.respond _ _ _
  | applyReady => exact h.nextByte.respond _ _ _

theorem runWord {s t : State} {c : Config} {cw : Word} (h : s.Inv) (ht : runWord c cw s = .next t) : t.Inv := by
  rcases runWord_next_cases ht with ⟨_, _, rfl⟩ | ⟨_, _, he⟩
  · exact h.raise _
  · exact h.execTo he

end State.Inv

/-- After a reset event the invariant holds, whatever the state was: READY is 0 and KEY holds nothing. -/
theorem applyReset_inv (s : State) : s.applyReset.Inv where
  key_wf := Memory.wf_nil
  ready_permutation := fun hr => by simp at hr

/-- Settles O40: an idle step changes nothing, a word keeps the invariant, a reset establishes it. -/
theorem stepKeepsPermutationInvariant : Obligations.StepKeepsPermutationInvariant := by
  unfold Obligations.StepKeepsPermutationInvariant
  intro c s t h ht
  rcases stepWith_next_cases ht with ⟨_, rfl⟩ | ⟨_, rest, _, hw⟩ | ⟨_, _, _, _, rfl⟩
  · exact h
  · exact (h.withInputs rest).runWord hw
  · exact applyReset_inv _

/-- Settles O41: the state after reset is its own reset. -/
theorem resetMeetsPermutationInvariant : Obligations.ResetMeetsPermutationInvariant :=
  applyReset_inv State.reset

/-- Settles O42: the reset values by `State.reset`'s definition, and a KEYLEN of 0 is no legal length. -/
theorem resetStateValues : Obligations.ResetStateValues := by
  unfold Obligations.ResetStateValues
  refine ⟨rfl, rfl, fun _ => rfl, fun s _ hlen => ?_⟩
  have hillegal : legalKeyLength s.KEYLEN = false := by rw [hlen]; decide
  exact (execInit_illegalLength hillegal).trans (congrArg _ (raise_eq_answered s .invalidKeyLength))

theorem KeyLoaded.legalKeyLength {s : State} {key : Nat → Byte} (h : KeyLoaded s key) :
    legalKeyLength s.KEYLEN = true := by
  obtain ⟨h5, h256, _⟩ := h
  exact (legalKeyLength_iff _).2 ⟨h5, h256⟩

/-- The key bytes as the KSA reads them: a KEY index below KEYLEN is one byte. -/
theorem KeyLoaded.read {s : State} {key : Nat → Byte} (h : KeyLoaded s key) {m : Nat} (hm : m < s.KEYLEN.toNat) :
    s.KEY.read m = some (key m) := by
  obtain ⟨_, h256, hkey⟩ := h
  have hmod : m % 256 = m := Nat.mod_eq_of_lt (by omega)
  simpa [State.keyAt, hmod] using hkey m hm

theorem KeyLoaded.keyWritten {s : State} {key : Nat → Byte} (h : KeyLoaded s key) :
    keyWritten s.KEY s.KEYLEN.toNat = true :=
  (keyWritten_iff _ _).2 fun m hm => by rw [h.read hm]; rfl

theorem KeyLoaded.execInit {s : State} {key : Nat → Byte} (h : KeyLoaded s key) :
    execInit s = .next (s.initialized.respond .ok 0 0) :=
  execInit_ok h.legalKeyLength h.keyWritten

/-- Settles O21: a loaded key lets INIT schedule, and the KSA leaves a permutation. -/
theorem initEstablishesPermutation : Obligations.InitEstablishesPermutation := by
  unfold Obligations.InitEstablishesPermutation
  intro s key h
  exact ⟨_, h.execInit, ksa_isPermutation _ _ _⟩

end Sys2Proof.Machine
end

section
/-! Who writes what (10_state.md R21 to R27), each read off the lines of `ExecTo`. -/

namespace Sys2Proof.Machine

/-- Every command that goes on gives one response, which carries the READY of the state after (R62). -/
theorem ExecTo.responses_eq {s t : State} {i : Instr} (h : ExecTo s i t) :
    ∃ code d0 d1, t.responses = s.responses ++ [responseWord code t.READY d0 d1] := by
  cases h <;> exact ⟨_, _, _, rfl⟩

/-- READY stays, or the command is an INIT that answers OK (R27). -/
theorem ExecTo.ready_cases {s t : State} {i : Instr} (h : ExecTo s i t) :
    t.READY = s.READY ∨
      (i = .init ∧ t.READY = true ∧ t.responses = s.responses ++ [answerWord 0 true 0 0]) := by
  cases h with
  | initSchedules => exact .inr ⟨rfl, rfl, by simp [responseWord_eq, codeBits]⟩
  | _ => exact .inl rfl

theorem runWord_responses_eq {c : Config} {cw : Word} {s t : State} (h : runWord c cw s = .next t) :
    ∃ code d0 d1, t.responses = s.responses ++ [responseWord code t.READY d0 d1] := by
  rcases runWord_next_cases h with ⟨_, _, rfl⟩ | ⟨_, _, he⟩
  · exact ⟨_, _, _, rfl⟩
  · exact he.responses_eq

theorem runWord_ready_cases {c : Config} {cw : Word} {s t : State} (h : runWord c cw s = .next t) :
    t.READY = s.READY ∨ (decode c cw = .command .init ∧ t.READY = true ∧
      t.responses = s.responses ++ [answerWord 0 true 0 0]) := by
  rcases runWord_next_cases h with ⟨_, _, rfl⟩ | ⟨_, hd, he⟩
  · exact .inl rfl
  · exact he.ready_cases.imp id fun ⟨hi, hr, ha⟩ => ⟨hi ▸ hd, hr, ha⟩

/-- READY across a step: it stays, an INIT that answers OK sets it, or a reset clears it (R27). -/
theorem stepWith_ready_cases {c : Config} {s t : State} (h : stepWith c s = .next t) :
    t.READY = s.READY ∨
    (t.READY = true ∧ ∃ cw rest, s.inputs = .command cw :: rest ∧ decode c cw = .command .init ∧
      t.responses = s.responses ++ [answerWord 0 true 0 0]) ∨
    (t.READY = false ∧ ∃ x rest, s.inputs = x :: rest ∧ (x = .reset ∨ ∃ cw, x = .resetDuring cw)) := by
  rcases stepWith_next_cases h with ⟨_, rfl⟩ | ⟨cw, rest, hin, hw⟩ | ⟨x, rest, hin, hx, rfl⟩
  · exact .inl rfl
  · exact (runWord_ready_cases hw).imp id fun ⟨hd, hr, ha⟩ => .inl ⟨hr, cw, rest, hin, hd, ha⟩
  · exact .inr (.inr ⟨rfl, x, rest, hin, hx⟩)

/-- Settles O34, from what READY can do across a command (`ExecTo.ready_cases`), a word's response and a step. -/
theorem readySetByInitClearedByReset : Obligations.ReadySetByInitClearedByReset := by
  unfold Obligations.ReadySetByInitClearedByReset
  refine ⟨fun c s t h => ⟨fun hs ht => ?_, fun hs ht => ?_⟩, fun s t h hne => ?_, fun c cw s t h => ?_, ?_⟩
  · rcases stepWith_ready_cases h with he | ⟨_, hinit⟩ | ⟨hr, _⟩
    · rw [he, hs] at ht; cases ht
    · exact hinit
    · rw [hr] at ht; cases ht
  · rcases stepWith_ready_cases h with he | ⟨hr, _⟩ | ⟨_, hreset⟩
    · rw [he, hs] at ht; cases ht
    · rw [hr] at ht; cases ht
    · exact hreset
  · exact (exec_next_iff.1 h).ready_cases.resolve_right fun ⟨_, _, ha⟩ => hne ha
  · obtain ⟨code, d0, d1, ha⟩ := runWord_responses_eq h
    exact ⟨_, ha, answerReady_responseWord _ _ _ _⟩
  · rintro i s hr (⟨d, rfl⟩ | ⟨a, rfl⟩ | rfl)
    · exact ((exec_notReady hr).1 d).trans (congrArg _ (raise_eq_answered s .notReady))
    · exact ((exec_notReady hr).2.1 a).trans (congrArg _ (raise_eq_answered s .notReady))
    · exact (exec_notReady hr).2.2.trans (congrArg _ (raise_eq_answered s .notReady))

/-- A KEY byte stays, or the command is a KEYWR at its index (R25). -/
theorem ExecTo.keyAt_cases {s t : State} {i : Instr} (h : ExecTo s i t) (a : Byte) :
    t.keyAt a = s.keyAt a ∨ ∃ v, i = .keywr a v ∧ t.keyAt a = some v := by
  cases h with
  | keywr b v =>
    by_cases hab : a = b
    · subst hab; exact .inr ⟨v, rfl, State.keyAt_writeKey_same s a v⟩
    · exact .inl (State.keyAt_writeKey_ne s v hab)
  | _ => exact .inl rfl

/-- KEYLEN stays, or the command is a KEYLEN (R26). -/
theorem ExecTo.keylen_cases {s t : State} {i : Instr} (h : ExecTo s i t) :
    t.KEYLEN = s.KEYLEN ∨ ∃ l, i = .keylen l ∧ t.KEYLEN = l := by
  cases h with
  | keylen len => exact .inr ⟨len, rfl, rfl⟩
  | _ => exact .inl rfl

/-- Settles O35: an ILLEGAL word changes no state, and a command changes KEY and KEYLEN as `ExecTo.keyAt_cases` and
`ExecTo.keylen_cases` say. -/
theorem keyStateWrittenOnlyByItsCommand : Obligations.KeyStateWrittenOnlyByItsCommand := by
  unfold Obligations.KeyStateWrittenOnlyByItsCommand
  intro c cw s t h
  rcases runWord_next_cases h with ⟨_, _, rfl⟩ | ⟨i, hd, he⟩
  · exact ⟨fun _ => .inl rfl, .inl rfl⟩
  · exact ⟨fun a => (he.keyAt_cases a).imp id fun ⟨v, hi, hv⟩ => ⟨v, hi ▸ hd, hv⟩,
      he.keylen_cases.imp id fun ⟨l, hi, hl⟩ => ⟨l, hi ▸ hd, hl⟩⟩

/-- S, i and j stay, or the command is a successful INIT, or an APPLY with a cipher state (R21, R23, R24). -/
theorem ExecTo.cipher_cases {s t : State} {i : Instr} (h : ExecTo s i t) :
    SameCipher s t ∨ (i = .init ∧ t.i = 0 ∧ t.j = 0 ∧ t.READY = true) ∨
    (∃ d, i = .apply d ∧ s.READY = true ∧ t.i = s.i + 1 ∧ t.j = s.j + s.sAt (s.i + 1) ∧
      t.S = sSwap s.S t.i t.j) := by
  cases h with
  | initSchedules => exact .inr (.inl ⟨rfl, rfl, rfl, rfl⟩)
  | applyReady d hr => exact .inr (.inr ⟨d, rfl, hr, rfl, rfl, rfl⟩)
  | _ => exact .inl ⟨rfl, rfl, rfl⟩

/-- Settles O36: an ILLEGAL word changes no state, and a command changes S, i and j as `ExecTo.cipher_cases` says. -/
theorem cipherStateWrittenOnlyByInitAndApply : Obligations.CipherStateWrittenOnlyByInitAndApply := by
  unfold Obligations.CipherStateWrittenOnlyByInitAndApply
  intro c cw s t h
  rcases runWord_next_cases h with ⟨_, _, rfl⟩ | ⟨i, hd, he⟩
  · exact .inl ⟨rfl, rfl, rfl⟩
  · exact he.cipher_cases.imp id (Or.imp (fun ⟨hi, hs⟩ => ⟨hi ▸ hd, hs⟩) fun ⟨d, hi, hs⟩ => ⟨d, hi ▸ hd, hs⟩)

end Sys2Proof.Machine
end

section
/-! What KEY cannot reach (10_state.md R25): two states alike but for KEY stay so under every command but INIT. -/

namespace Sys2Proof.Machine

/-- The same responses, cipher state, KEYLEN and READY: all a host can learn of, KEY left out. -/
def SameButKey (s t : State) : Prop :=
  t.responses = s.responses ∧ SameCipher s t ∧ t.KEYLEN = s.KEYLEN ∧ t.READY = s.READY

namespace SameButKey

theorem respond {s t : State} (h : SameButKey s t) (code : Code) (d0 d1 : Byte) :
    SameButKey (s.respond code d0 d1) (t.respond code d0 d1) := by
  obtain ⟨hresp, hcipher, hlen, hready⟩ := h
  exact ⟨by simp [hresp, hready], hcipher, hlen, hready⟩

theorem raise {s t : State} (h : SameButKey s t) (code : Code) : SameButKey (s.raise code) (t.raise code) :=
  h.respond code 0 0

theorem writeKey {s t : State} (h : SameButKey s t) (a v : Byte) : SameButKey (s.writeKey a v) (t.writeKey a v) := h

theorem writeKeylen {s t : State} (h : SameButKey s t) (len : KeyLength) :
    SameButKey (s.writeKeylen len) (t.writeKeylen len) := by
  obtain ⟨hresp, hcipher, _, hready⟩ := h
  exact ⟨hresp, hcipher, rfl, hready⟩

theorem nextByte {s t : State} (h : SameButKey s t) :
    (nextByte t).2 = (nextByte s).2 ∧ SameButKey (nextByte s).1 (nextByte t).1 := by
  obtain ⟨hresp, hcipher, hlen, hready⟩ := h
  obtain ⟨hbyte, hnext⟩ := nextByte_congr hcipher
  exact ⟨hbyte, hresp, hnext, hlen, hready⟩

/-- Every command but INIT goes on in both states alike: what it reads is the same in both. -/
theorem execTo {s t s' : State} {i : Instr} (h : SameButKey s t) (hi : i ≠ .init) (hs : ExecTo s i s') :
    ∃ t', ExecTo t i t' ∧ SameButKey s' t' := by
  have ⟨_, ⟨hS, hci, hcj⟩, hlen, hready⟩ := h
  cases hs with
  | nop => exact ⟨_, .nop, h.respond _ _ _⟩
  | keywr a v => exact ⟨_, .keywr a v, (h.writeKey a v).respond _ _ _⟩
  | keylen len => exact ⟨_, .keylen len, (h.writeKeylen len).respond _ _ _⟩
  | initRejects | initSchedules => exact absurd rfl hi
  | applyNotReady d hr => exact ⟨_, .applyNotReady d (hready.trans hr), h.raise _⟩
  | applyReady d hr =>
    obtain ⟨hbyte, hnext⟩ := h.nextByte
    exact ⟨_, .applyReady d (hready.trans hr), hbyte ▸ hnext.respond _ _ _⟩
  | srdNotReady a hr => exact ⟨_, .srdNotReady a (hready.trans hr), h.raise _⟩
  | srdReady a hr =>
    have hread : t.sAt a = s.sAt a := congrArg (sRead · a) hS
    exact ⟨_, .srdReady a (hready.trans hr), hread ▸ h.respond _ _ _⟩
  | ijrdNotReady hr => exact ⟨_, .ijrdNotReady (hready.trans hr), h.raise _⟩
  | ijrdReady hr => exact ⟨_, .ijrdReady (hready.trans hr), hci ▸ hcj ▸ h.respond _ _ _⟩
  | rdstat => exact ⟨_, .rdstat, hlen ▸ h.respond _ _ _⟩

end SameButKey

/-- Settles O37: a state with another KEY is alike but for KEY, and the word keeps it so. -/
theorem keyNeverReturned : Obligations.KeyNeverReturned := by
  unfold Obligations.KeyNeverReturned
  intro c cw s s' key hd h
  have hk : SameButKey s { s with KEY := key } := ⟨rfl, ⟨rfl, rfl, rfl⟩, rfl, rfl⟩
  rcases runWord_next_cases h with ⟨_, hill, rfl⟩ | ⟨i, hc, he⟩
  · exact ⟨_, runWord_of_illegal hill _, hk.raise _⟩
  · obtain ⟨t', ht', hsame⟩ := hk.execTo (fun hi => hd (hi ▸ hc)) he
    exact ⟨t', (runWord_of_command hc _).trans (exec_next_iff.2 ht'), hsame⟩

end Sys2Proof.Machine
end

section
/-! The port's order (20_memory.md R48): what waits in `inputs` is neither read nor changed by a command or a reset. -/

namespace Sys2Proof.Machine

/-- A command leaves what waits on the port (R48). -/
theorem ExecTo.inputs_eq {s t : State} {i : Instr} (h : ExecTo s i t) : t.inputs = s.inputs := by
  cases h <;> rfl

/-- A command does the same with anything else waiting on the port, and leaves that waiting (R48). -/
theorem ExecTo.withInputs {s t : State} {i : Instr} (h : ExecTo s i t) (rest : List HostInput) :
    ExecTo { s with inputs := rest } i { t with inputs := rest } := by
  cases h with
  | nop => exact .nop
  | keywr a v => exact .keywr a v
  | keylen len => exact .keylen len
  | initRejects hl => exact .initRejects hl
  | initSchedules hl hw => exact .initSchedules hl hw
  | applyNotReady d hr => exact .applyNotReady d hr
  | applyReady d hr => exact .applyReady d hr
  | srdNotReady a hr => exact .srdNotReady a hr
  | srdReady a hr => exact .srdReady a hr
  | ijrdNotReady hr => exact .ijrdNotReady hr
  | ijrdReady hr => exact .ijrdReady hr
  | rdstat => exact .rdstat

theorem runWord_inputs_eq {c : Config} {cw : Word} {s t : State} (h : runWord c cw s = .next t) :
    t.inputs = s.inputs := by
  rcases runWord_next_cases h with ⟨_, _, rfl⟩ | ⟨_, _, he⟩
  · rfl
  · exact he.inputs_eq

theorem runWord_withInputs {c : Config} {cw : Word} {s t : State} (h : runWord c cw s = .next t)
    (rest : List HostInput) : runWord c cw { s with inputs := rest } = .next { t with inputs := rest } := by
  rcases runWord_next_cases h with ⟨_, hill, rfl⟩ | ⟨_, hd, he⟩
  · exact runWord_of_illegal hill _
  · exact (runWord_of_command hd _).trans (exec_next_iff.2 (he.withInputs rest))

/-- Settles O12: a command word runs alike whatever waits behind it (`runWord_withInputs`) and leaves that waiting,
and a reset event keeps the port. -/
theorem stepTakesOldestInputOnly : Obligations.StepTakesOldestInputOnly := by
  unfold Obligations.StepTakesOldestInputOnly
  intro c s t x rest h
  cases x with
  | command cw =>
    rw [stepWith_of_command rfl] at h
    exact ⟨runWord_inputs_eq h, fun rest' => (stepWith_of_command rfl).trans (runWord_withInputs h rest')⟩
  | reset =>
    cases h
    exact ⟨rfl, fun _ => rfl⟩
  | resetDuring cw =>
    cases h
    exact ⟨rfl, fun _ => rfl⟩

end Sys2Proof.Machine
end

section
/-! Repeated commands (20_memory.md R45): INIT, KEYWR and KEYLEN twice leave the block as once does, the reads change
nothing, and APPLY moves the keystream on. -/

namespace Sys2Proof.Machine

/-- The KSA overwrites the whole array before it reads it (R94). -/
theorem ksa_overwrites (key : Memory) (L : Nat) (S T : SArray) : ksa key L S = ksa key L T := by
  rw [ksa_eq, ksa_eq, ksaIdentity_eq S T]

/-- An INIT that went on with a legal length has scheduled the key (R90). -/
theorem ExecTo.init_of_legal {s t : State} (h : ExecTo s .init t) (hl : legalKeyLength s.KEYLEN = true) :
    keyWritten s.KEY s.KEYLEN.toNat = true ∧ t = s.initialized.respond .ok 0 0 := by
  cases h with
  | initRejects hn => rw [hl] at hn; cases hn
  | initSchedules _ hw => exact ⟨hw, rfl⟩

/-- A second INIT schedules the same key again, over another array (R45). -/
theorem execInit_twice {s t : State} (h : ExecTo s .init t) (hl : legalKeyLength s.KEYLEN = true) :
    execInit t = .next (t.initialized.respond .ok 0 0) ∧ SameBlock t (t.initialized.respond .ok 0 0) := by
  obtain ⟨hw, rfl⟩ := h.init_of_legal hl
  exact ⟨execInit_ok hl hw, ⟨congrArg Prod.fst (ksa_overwrites _ _ _ _), rfl, rfl⟩, rfl, rfl, rfl⟩

/-- Writing the same byte again changes nothing. -/
@[simp] theorem Memory.write_write_same (m : Memory) (a : Nat) (v : Byte) : (m.write a v).write a v = m.write a v := by
  induction m with
  | nil => simp [Memory.write]
  | cons c rest ih =>
    obtain ⟨b, w⟩ := c
    rcases Nat.lt_trichotomy a b with hab | rfl | hba
    · simp [Memory.write, hab]
    · simp [Memory.write]
    · have hlt : ¬ a < b := by omega
      have hne : a ≠ b := by omega
      simp [Memory.write, hlt, hne, ih]

/-- NOP, SRD, IJRD and RDSTAT go on in every state and only respond (R45). -/
theorem exec_read_responds {i : Instr} (s : State)
    (hi : i = .nop ∨ (∃ a, i = .srd a) ∨ i = .ijrd ∨ i = .rdstat) :
    ∃ code d0 d1, exec i s = .next (s.respond code d0 d1) := by
  rcases hi with rfl | ⟨a, rfl⟩ | rfl | rfl
  · exact ⟨_, _, _, rfl⟩
  · cases hr : s.READY
    · exact ⟨_, _, _, (exec_notReady hr).2.1 a⟩
    · exact ⟨_, _, _, execSrd_ready hr a⟩
  · cases hr : s.READY
    · exact ⟨_, _, _, (exec_notReady hr).2.2⟩
    · exact ⟨_, _, _, execIjrd_ready hr⟩
  · exact ⟨_, _, _, rfl⟩

/-- The one new byte of an APPLY with a cipher state (R101). -/
theorem ExecTo.newBytes_apply {s t : State} {d : Byte} (h : ExecTo s (.apply d) t) (hr : s.READY = true) :
    newBytes s t = [d ^^^ (nextByte s).2] := by
  cases h with
  | applyNotReady _ hn => rw [hr] at hn; cases hn
  | applyReady => simp [newBytes]

/-- From the identity and i = j = 0 the first step has i = j = 1, swaps nothing and answers S[2]; the second has i = 2
and j = 3, swaps these two entries and answers S[5] (R100). -/
theorem nextByte_twice_of_identity {s : State} (hS : ∀ a, sRead s.S a = a) (hi : s.i = 0) (hj : s.j = 0) :
    (nextByte s).2 = 2 ∧ (nextByte (nextByte s).1).2 = 5 := by
  constructor
  · simp [nextByte, hS, hi, hj]
  · simp [nextByte, hS, hi, hj, sRead_sSwap]

/-- A state with a running cipher: S the identity, i = j = 0. -/
def identityCipher : State := (State.reset.withCipher (ksaIdentity State.reset.S) 0 0).setReady

@[simp] theorem sRead_identityCipher (a : Byte) : sRead identityCipher.S a = a := by
  simp [identityCipher]

theorem identityCipher_inv : identityCipher.Inv where
  key_wf := State.reset_key_wf
  ready_permutation := fun _ v => by simp

/-- Two APPLYs of the same byte answer with two successive keystream bytes (R100, R101). -/
theorem newBytes_apply_twice {s : State} (hr : s.READY = true) (d : Byte) :
    ∃ t u, ExecTo s (.apply d) t ∧ ExecTo t (.apply d) u ∧ newBytes s t = [d ^^^ (nextByte s).2] ∧
      newBytes t u = [d ^^^ (nextByte (nextByte s).1).2] :=
  have ht := ExecTo.applyReady d hr
  have hu := ExecTo.applyReady d (s := (nextByte s).1.respond .ok (d ^^^ (nextByte s).2) 0) hr
  ⟨_, _, ht, hu, ht.newBytes_apply hr, hu.newBytes_apply hr⟩

/-- Settles O33: INIT by `execInit_twice`, KEYWR by `Memory.write_write_same`, the reads by `exec_read_responds`, and
APPLY by the state `identityCipher`, in which it answers 2 and then 5. -/
theorem idempotentCommands : Obligations.IdempotentCommands := by
  unfold Obligations.IdempotentCommands
  refine ⟨fun s t h5 h256 h => ?_, fun i s hi => ?_, fun i s hi => ?_, ?_⟩
  · obtain ⟨hagain, hsame⟩ := execInit_twice (exec_next_iff.1 h) ((legalKeyLength_iff _).2 ⟨h5, h256⟩)
    exact ⟨_, hagain, hsame, rfl, rfl, rfl⟩
  · rcases hi with ⟨a, v, rfl⟩ | ⟨l, rfl⟩
    · exact ⟨_, _, rfl, rfl, ⟨rfl, rfl, rfl⟩, Memory.write_write_same _ _ _, rfl, rfl⟩
    · exact ⟨_, _, rfl, rfl, ⟨rfl, rfl, rfl⟩, rfl, rfl, rfl⟩
  · obtain ⟨_, _, _, h⟩ := exec_read_responds s hi
    exact ⟨_, _, h, rfl⟩
  · obtain ⟨hfirst, hsecond⟩ := nextByte_twice_of_identity (s := identityCipher) sRead_identityCipher rfl rfl
    obtain ⟨t, u, ht, hu, htb, hub⟩ := newBytes_apply_twice (s := identityCipher) rfl 0
    refine ⟨identityCipher, t, u, identityCipher_inv, rfl, exec_next_iff.2 ht, exec_next_iff.2 hu, ?_⟩
    rw [htb, hub, hfirst, hsecond]
    decide

end Sys2Proof.Machine
end

section
/-! Words and commands (30_encoding.md R65, R67): decoding and encoding undo each other, a word equals another when its
fields do, and which fields make a word ILLEGAL. -/

namespace Sys2Proof

/-- A command with the row's OP passes the two reserved fields and the row's own check, and each operand is read back
from the field that carries it. -/
theorem decode_encode {c : Config} {i : Instr} (h : i.wellFormed c = true) : decode c (encode i) = .command i := by
  cases i with
  | srd | ijrd =>
    have hp : c.pInspect = true := h
    simp [decode, encode, inspectionIf, commandIf, hp]
  | nop | keywr | keylen | init | apply | rdstat => simp [decode, encode, commandIf]

/-- Settles O1, command by command (`decode_encode`). -/
theorem decodeEncodeRoundTrip : Obligations.DecodeEncodeRoundTrip := by
  unfold Obligations.DecodeEncodeRoundTrip
  exact fun _ _ => decode_encode

/-- The word of a row is determined: its OP, the operands' fields, and 0 in every other field. -/
theorem encode_of_decode {c : Config} {cw : Word} {i : Instr} (h : decode c cw = .command i) :
    encode i = cw ∧ i.wellFormed c = true := by
  obtain ⟨hA, hB, hrow⟩ := decode_command_cases h
  have hcw := commandWord_of_fields hA hB
  rcases hrow with ⟨hop, harg, hdata, rfl⟩ | ⟨hop, htop, rfl⟩ | ⟨hop, hdata, rfl⟩ | ⟨hop, harg, hdata, rfl⟩ |
    ⟨hop, harg, rfl⟩ | ⟨hop, hp, htop, hdata, rfl⟩ | ⟨hop, hp, harg, hdata, rfl⟩ | ⟨hop, harg, hdata, rfl⟩
  · rw [hop, harg, hdata] at hcw; exact ⟨hcw, rfl⟩
  · rw [hop, ← indexArg_of_fields htop] at hcw; exact ⟨hcw, rfl⟩
  · rw [hop, hdata] at hcw; exact ⟨hcw, rfl⟩
  · rw [hop, harg, hdata] at hcw; exact ⟨hcw, rfl⟩
  · rw [hop, harg] at hcw; exact ⟨hcw, rfl⟩
  · rw [hop, ← indexArg_of_fields htop, hdata] at hcw; exact ⟨hcw, hp⟩
  · rw [hop, harg, hdata] at hcw; exact ⟨hcw, hp⟩
  · rw [hop, harg, hdata] at hcw; exact ⟨hcw, rfl⟩

/-- Settles O2, row by row (`encode_of_decode`). -/
theorem encodeDecodeRoundTrip : Obligations.EncodeDecodeRoundTrip := by
  unfold Obligations.EncodeDecodeRoundTrip
  exact fun _ _ _ => encode_of_decode

/-- The decoder's whole meaning: it answers a command on that command's word alone, in a build that has it. -/
theorem decode_eq_command_iff {c : Config} {cw : Word} {i : Instr} :
    decode c cw = .command i ↔ i.wellFormed c = true ∧ cw = encode i := by
  constructor
  · intro h
    obtain ⟨hword, hwf⟩ := encode_of_decode h
    exact ⟨hwf, hword.symm⟩
  · rintro ⟨hwf, rfl⟩; exact decode_encode hwf

/-- Settles O5: each word evaluated. -/
theorem decodesSampleWords : Obligations.DecodesSampleWords := by
  unfold Obligations.DecodesSampleWords
  exact ⟨by decide, by decide, by decide, by decide, by decide, by decide, by decide, by decide,
    ⟨.unusedField, by decide⟩, ⟨.inspectionAbsent, by decide⟩⟩

/-! ## A word by its match and mask -/

/-- Two words are equal when their five fields are (R61). -/
theorem word_eq_iff {x y : Word} : x = y ↔ opField x = opField y ∧ rsvAField x = rsvAField y ∧
    argField x = argField y ∧ rsvBField x = rsvBField y ∧ dataField x = dataField y := by
  refine ⟨by rintro rfl; simp, fun ⟨hop, hA, harg, hB, hdata⟩ => BitVec.eq_of_toNat_eq ?_⟩
  have hx := x.isLt
  have hy := y.isLt
  simp only [opField, rsvAField, argField, rsvBField, dataField, ← BitVec.toNat_inj, BitVec.extractLsb'_toNat,
    Nat.shiftRight_eq_div_pow] at hop hA harg hB hdata
  omega

@[simp] theorem opField_and (x y : Word) : opField (x &&& y) = opField x &&& opField y := BitVec.extractLsb'_and
@[simp] theorem rsvAField_and (x y : Word) : rsvAField (x &&& y) = rsvAField x &&& rsvAField y :=
  BitVec.extractLsb'_and
@[simp] theorem argField_and (x y : Word) : argField (x &&& y) = argField x &&& argField y := BitVec.extractLsb'_and
@[simp] theorem rsvBField_and (x y : Word) : rsvBField (x &&& y) = rsvBField x &&& rsvBField y :=
  BitVec.extractLsb'_and
@[simp] theorem dataField_and (x y : Word) : dataField (x &&& y) = dataField x &&& dataField y :=
  BitVec.extractLsb'_and

/-- ARG is the ARG of an index exactly when the mask of ARG[8] leaves nothing (R61). -/
theorem argField_eq_indexArg_iff (cw : Word) :
    argField cw = indexArg (idxField cw) ↔ argField cw &&& 256#9 = 0#9 := by
  have hand : (argField cw).toNat &&& 256 = ((argField cw).toNat.testBit 8).toNat * 256 := Nat.and_two_pow _ 8
  have harg := (argField cw).isLt
  have hidx : (idxField cw).toNat = (argField cw).toNat % 256 := by
    simp only [idxField, argField, BitVec.extractLsb'_toNat]; omega
  rw [← BitVec.toNat_inj, ← BitVec.toNat_inj, indexArg_toNat, BitVec.toNat_and, BitVec.toNat_ofNat, hidx]
  rw [Nat.testBit_eq_decide_div_mod_eq] at hand
  simp [hand]
  omega

/-! Every mask field that is not 0 or ARG[8] alone is all ones, and keeps its field as it is. -/

theorem and_ones_three (x : BitVec 3) : x &&& 7#3 = x := BitVec.and_allOnes
theorem and_ones_four (x : BitVec 4) : x &&& 15#4 = x := BitVec.and_allOnes
theorem and_ones_eight (x : BitVec 8) : x &&& 255#8 = x := BitVec.and_allOnes
theorem and_ones_nine (x : BitVec 9) : x &&& 511#9 = x := BitVec.and_allOnes

/-- The mask of a command's row in the table of R65. -/
def Instr.rowMask : Instr → Word
  | .nop | .init | .ijrd | .rdstat => 0xFFFFFFFF
  | .keywr _ _ => 0xFF00FF00
  | .keylen _ => 0xFE00FFFF
  | .apply _ => 0xFFFFFF00
  | .srd _ => 0xFF00FFFF

/-- The match of a command's row in the table of R65. -/
def Instr.rowMatch : Instr → Word
  | .nop => 0x00000000
  | .keywr _ _ => 0x10000000
  | .keylen _ => 0x20000000
  | .init => 0x30000000
  | .apply _ => 0x40000000
  | .srd _ => 0x50000000
  | .ijrd => 0x60000000
  | .rdstat => 0x70000000

/-- The command of the same row whose operands the fields of cw hold (R64). -/
def Instr.withFields (cw : Word) : Instr → Instr
  | .nop => .nop
  | .keywr _ _ => .keywr (idxField cw) (dataField cw)
  | .keylen _ => .keylen (argField cw)
  | .init => .init
  | .apply _ => .apply (dataField cw)
  | .srd _ => .srd (idxField cw)
  | .ijrd => .ijrd
  | .rdstat => .rdstat

@[simp] theorem Instr.wellFormed_withFields (c : Config) (cw : Word) (i : Instr) :
    (i.withFields cw).wellFormed c = i.wellFormed c := by
  cases i <;> rfl

/-- Field by field, the mask keeps just what the row fixes: a word is a word of the row when those fields agree. The
first `simp` compares the fields of cw with those of the encoder's word, the second reads the fields of the mask and
the match. -/
theorem eq_encode_withFields_iff (cw : Word) (i : Instr) :
    cw = encode (i.withFields cw) ↔ cw &&& i.rowMask = i.rowMatch := by
  rw [word_eq_iff, word_eq_iff]
  cases i <;> simp [encode, Instr.withFields, Instr.rowMask, Instr.rowMatch, argField_eq_indexArg_iff] <;>
    simp [opField, rsvAField, argField, rsvBField, dataField, and_ones_three, and_ones_four, and_ones_eight,
      and_ones_nine]

theorem decode_eq_withFields_iff (c : Config) (cw : Word) (i : Instr) :
    decode c cw = .command (i.withFields cw) ↔ i.wellFormed c = true ∧ cw &&& i.rowMask = i.rowMatch := by
  rw [decode_eq_command_iff, Instr.wellFormed_withFields, eq_encode_withFields_iff]

/-- A mask that keeps all of OP fixes it. -/
theorem opField_of_match {cw mask m : Word} (hmask : opField mask = 0xF) (h : cw &&& mask = m) :
    opField cw = opField m := by
  rw [← h, opField_and, hmask]
  exact BitVec.and_allOnes.symm

/-! ## ILLEGAL words (R67) -/

theorem exists_commandIf_eq_illegal_iff {b : Bool} {i : Instr} :
    (∃ why, commandIf b i = .illegal why) ↔ b = false := by
  cases b <;> simp [commandIf]

theorem exists_inspectionIf_eq_illegal_iff {c : Config} {b : Bool} {i : Instr} :
    (∃ why, inspectionIf c b i = .illegal why) ↔ c.pInspect = false ∨ b = false := by
  cases hp : c.pInspect <;> simp [inspectionIf, hp, exists_commandIf_eq_illegal_iff]

/-- The conditions of R67: an opcode without a row in this build, or a bit that is 1 and its row requires to be 0. -/
def IllegalBits (c : Config) (cw : Word) : Prop :=
  let op := (opField cw).toNat
  8 ≤ op ∨ (c.pInspect = false ∧ (op = 5 ∨ op = 6)) ∨ rsvAField cw ≠ 0 ∨ rsvBField cw ≠ 0 ∨
    ((op = 0 ∨ op = 3 ∨ op = 4 ∨ op = 6 ∨ op = 7) ∧ argField cw ≠ 0) ∨
    ((op = 1 ∨ op = 5) ∧ argTopField cw ≠ 0) ∨
    ((op = 0 ∨ op = 2 ∨ op = 3 ∨ op = 5 ∨ op = 6 ∨ op = 7) ∧ dataField cw ≠ 0)

theorem exists_decode_eq_illegal_iff (c : Config) (cw : Word) :
    (∃ why, decode c cw = .illegal why) ↔ IllegalBits c cw := by
  unfold decode IllegalBits
  by_cases hr : rsvAField cw ≠ 0 ∨ rsvBField cw ≠ 0
  · have hsome : ∃ why, Decoded.illegal Illegal.reservedField = .illegal why := ⟨_, rfl⟩
    rw [if_pos hr]
    tauto
  · rw [if_neg hr]
    push Not at hr
    obtain ⟨hA, hB⟩ := hr
    split
    case h_9 =>
      simp only [imp_false] at *
      have hop : 8 ≤ (opField cw).toNat := by omega
      exact iff_of_true ⟨_, rfl⟩ (.inl hop)
    all_goals
      rename_i hop
      simp [hop, hA, hB, exists_commandIf_eq_illegal_iff, exists_inspectionIf_eq_illegal_iff, imp_iff_not_or]

end Sys2Proof

namespace Sys2Proof.Machine

/-- Settles O3: a row's word decodes to its command as `decode_eq_withFields_iff` says, an opcode without a row is
ILLEGAL, and no two rows meet, since every mask keeps all of OP and every match has another OP. -/
theorem opcodeMapMatchesMasks : Obligations.OpcodeMapMatchesMasks := by
  unfold Obligations.OpcodeMapMatchesMasks
  refine ⟨fun c cw => ?_, ?_⟩
  · have row (i : Instr) (hwf : i.wellFormed c = true) := (decode_eq_withFields_iff c cw i).trans (and_iff_right hwf)
    refine ⟨row .nop rfl, row (.keywr 0 0) rfl, row (.keylen 0) rfl, row .init rfl, row (.apply 0) rfl,
      decode_eq_withFields_iff c cw (.srd 0), decode_eq_withFields_iff c cw .ijrd, row .rdstat rfl, fun hop => ?_,
      fun hp hword => ?_⟩
    · exact (exists_decode_eq_illegal_iff c cw).2 (.inl hop)
    · refine (exists_decode_eq_illegal_iff c cw).2 (.inr (.inl ⟨hp, hword.imp (fun hsrd => ?_) fun hijrd => ?_⟩))
      · rw [opField_of_match (by decide) hsrd]; decide
      · rw [hijrd]; decide
  · refine List.Pairwise.imp (R := fun p q => opField p.2 = 0xF ∧ opField q.2 = 0xF ∧ opField p.1 ≠ opField q.1)
      (fun ⟨hp, hq, hne⟩ cw ⟨hmp, hmq⟩ => ?_) (by decide)
    exact hne ((opField_of_match hp hmp).symm.trans (opField_of_match hq hmq))

theorem answersIllegal_of_illegal {c : Config} {cw : Word} {why : Illegal} (h : decode c cw = .illegal why) :
    AnswersIllegal c cw :=
  fun s => (runWord_of_illegal h s).trans (congrArg _ (raise_eq_answered s .illegal))

/-- Settles O4, by `exists_decode_eq_illegal_iff`. -/
theorem illegalWordsExactly : Obligations.IllegalWordsExactly := by
  unfold Obligations.IllegalWordsExactly
  intro c cw op bad
  have hbad : (∃ why, decode c cw = .illegal why) ↔ bad := exists_decode_eq_illegal_iff c cw
  refine ⟨hbad, fun h => ?_, fun h => ?_⟩
  · obtain ⟨_, hd⟩ := hbad.2 h
    exact answersIllegal_of_illegal hd
  · cases hd : decode c cw with
    | command i => exact ⟨i, rfl, runWord_of_command hd⟩
    | illegal why => exact absurd (hbad.1 ⟨why, hd⟩) h

end Sys2Proof.Machine
end

section
/-! A step runs the command its word decodes to (30_encoding.md R60, R70), and the response word it gives (R62). -/

namespace Sys2Proof.Machine

theorem decode_of_decodeTableWord {w : Nat} {i : Instr} (h : decodeTableWord 32 w = some i) :
    decode Config.cmdV1 (tableWord 32 w) = .command i := by
  unfold decodeTableWord at h
  rw [if_pos (Nat.le_refl 32)] at h
  split at h
  · cases h; assumption
  · cases h

/-- Settles O10: the first input's word runs as `runWord`, and `withFetchWord` puts its word first. -/
theorem stepRunsDecodedCommand : Obligations.StepRunsDecodedCommand := by
  unfold Obligations.StepRunsDecodedCommand
  refine ⟨fun c s cw rest i hin hd => ?_, fun c s cw rest why hin hd => ?_, fun _ => rfl, fun s w i h => ?_⟩
  · exact (stepWith_of_command hin).trans (runWord_of_command hd _)
  · exact (stepWith_of_command hin).trans (answersIllegal_of_illegal hd _)
  · exact (stepWith_of_command rfl).trans (runWord_of_command (decode_of_decodeTableWord h) s)

/-- A response word has 19 bits. -/
theorem responseWord_reserved (code : Code) (ready : Bool) (d0 d1 : Byte) :
    (responseWord code ready d0 d1).extractLsb' 19 13 = 0 := by
  apply BitVec.eq_of_toNat_eq
  have h0 := d0.isLt
  have h1 := d1.isLt
  have hc := (codeBits code).isLt
  rw [BitVec.extractLsb'_toNat, responseWord_toNat, Nat.shiftRight_eq_div_pow]
  cases ready <;> simp <;> omega

/-- The response word is the number of its own four fields (R62). -/
theorem responseWord_toNat_fields (code : Code) (ready : Bool) (d0 d1 : Byte) :
    let rw := responseWord code ready d0 d1
    rw.toNat = (answerCode rw).toNat * 2 ^ 17 + (answerReady rw).toNat * 2 ^ 16 + (answerD1 rw).toNat * 2 ^ 8 +
      (answerD0 rw).toNat := by
  simp [responseWord_toNat]

/-- The commands that return nothing to the host (R62). -/
def ReturnsNothing (i : Instr) : Prop := i = .nop ∨ (∃ a v, i = .keywr a v) ∨ (∃ l, i = .keylen l) ∨ i = .init

/-- The response of a command that goes on: READY is that of the state after, and the two result bytes are 0 unless
the command is OK and returns something (R62). -/
theorem ExecTo.response {s t : State} {i : Instr} (h : ExecTo s i t) :
    ∃ code d0 d1, t.responses = s.responses ++ [responseWord code t.READY d0 d1] ∧
      (code ≠ .ok ∨ ReturnsNothing i → d0 = 0 ∧ d1 = 0) := by
  cases h with
  | nop | keywr | keylen | initRejects | initSchedules | applyNotReady | srdNotReady | ijrdNotReady =>
    exact ⟨_, 0, 0, rfl, fun _ => ⟨rfl, rfl⟩⟩
  | applyReady | srdReady | ijrdReady | rdstat =>
    exact ⟨.ok, _, _, rfl, fun h => by simp [ReturnsNothing] at h⟩

theorem runWord_response {c : Config} {cw : Word} {s t : State} (h : runWord c cw s = .next t) :
    ∃ code d0 d1, t.responses = s.responses ++ [responseWord code t.READY d0 d1] ∧
      (code ≠ .ok → d0 = 0 ∧ d1 = 0) ∧ (∀ i, decode c cw = .command i → ReturnsNothing i → d0 = 0 ∧ d1 = 0) := by
  rcases runWord_next_cases h with ⟨_, _, rfl⟩ | ⟨i, hd, he⟩
  · exact ⟨_, 0, 0, rfl, fun _ => ⟨rfl, rfl⟩, fun _ _ _ => ⟨rfl, rfl⟩⟩
  · obtain ⟨code, d0, d1, hresp, hzero⟩ := he.response
    refine ⟨code, d0, d1, hresp, fun hc => hzero (.inl hc), fun k hk hn => hzero (.inr ?_)⟩
    rw [hd] at hk
    cases hk
    exact hn

/-- Settles O13: the response is the block's composition (`runWord_response`), whose fields read back. -/
theorem responseWordFormat : Obligations.ResponseWordFormat := by
  unfold Obligations.ResponseWordFormat
  intro c cw s t h
  obtain ⟨code, d0, d1, hresp, hcode, hnothing⟩ := runWord_response h
  have hok : codeBits code ≠ 0 → code ≠ .ok := by rintro hne rfl; exact hne rfl
  refine ⟨_, hresp, responseWord_reserved _ _ _ _, answerReady_responseWord _ _ _ _, fun hne => ?_,
    fun i hd hi => ?_, responseWord_toNat_fields _ _ _ _⟩
  · rw [answerCode_responseWord] at hne
    rw [answerD0_responseWord, answerD1_responseWord]
    exact hcode (hok hne)
  · rw [answerD0_responseWord, answerD1_responseWord]
    exact hnothing i hd hi

end Sys2Proof.Machine
end

section
/-! The assembler (30_encoding.md R71, R72): each command's word as the table's sum, and the words of a pseudo-instruction. -/

namespace Sys2Proof

theorem encode_keywr_ofNat {idx data : Nat} (hi : idx ≤ 255) (hd : data ≤ 255) :
    encode (.keywr (BitVec.ofNat 8 idx) (BitVec.ofNat 8 data)) =
      BitVec.ofNat 32 (0x10000000 + (idx <<< 16) + data) := by
  apply BitVec.eq_of_toNat_eq
  simp [encode, commandWord_toNat, Nat.shiftLeft_eq]
  omega

theorem encode_keylen_ofNat {len : Nat} (h : len ≤ 511) :
    encode (.keylen (BitVec.ofNat 9 len)) = BitVec.ofNat 32 (0x20000000 + (len <<< 16)) := by
  apply BitVec.eq_of_toNat_eq
  simp [encode, commandWord_toNat, Nat.shiftLeft_eq]
  omega

theorem encode_apply_ofNat {data : Nat} (h : data ≤ 255) :
    encode (.apply (BitVec.ofNat 8 data)) = BitVec.ofNat 32 (0x40000000 + data) := by
  apply BitVec.eq_of_toNat_eq
  simp [encode, commandWord_toNat]
  omega

theorem encode_srd_ofNat {idx : Nat} (h : idx ≤ 255) :
    encode (.srd (BitVec.ofNat 8 idx)) = BitVec.ofNat 32 (0x50000000 + (idx <<< 16)) := by
  apply BitVec.eq_of_toNat_eq
  simp [encode, commandWord_toNat, Nat.shiftLeft_eq]
  omega

@[simp] theorem byteOperand_iff (n : Nat) : byteOperand n = true ↔ n ≤ 255 := by simp [byteOperand]

/-- A line spells its commands' words when its operands are in range (R71). -/
theorem assemble_eq_ite {a : Asm} {p : Prop} [Decidable p] {words : List Word} (hwf : a.wellFormed = true ↔ p)
    (hwords : p → a.commands.map encode = words) : assemble a = if p then some words else none := by
  unfold assemble
  by_cases hp : p
  · rw [if_pos (hwf.2 hp), if_pos hp, hwords hp]
  · rw [if_neg (hwf.not.2 hp), if_neg hp]

/-- Settles O7: a line is well formed when its operands are in range, and each is then the field of its word. -/
theorem assemblyLinesSpellWords : Obligations.AssemblyLinesSpellWords := by
  unfold Obligations.AssemblyLinesSpellWords
  refine ⟨by decide, fun idx data => ?_, fun len => ?_, by decide, fun data => ?_, fun idx => ?_, by decide, by decide⟩
  · exact assemble_eq_ite (by simp [Asm.wellFormed]) fun h => congrArg (fun w => [w]) (encode_keywr_ofNat h.1 h.2)
  · exact assemble_eq_ite (by simp [Asm.wellFormed]) fun h => congrArg (fun w => [w]) (encode_keylen_ofNat h)
  · exact assemble_eq_ite (by simp [Asm.wellFormed]) fun h => congrArg (fun w => [w]) (encode_apply_ofNat h)
  · exact assemble_eq_ite (by simp [Asm.wellFormed]) fun h => congrArg (fun w => [w]) (encode_srd_ofNat h)

/-- The writes of LOADKEY from index m on, as words (R72). -/
theorem map_encode_keywrsFrom {m : Nat} {key : List Nat} (hlen : m + key.length ≤ 256) (hkey : ∀ k ∈ key, k ≤ 255) :
    (keywrsFrom m key).map encode = key.mapIdx fun n k => BitVec.ofNat 32 (0x10000000 + ((m + n) <<< 16) + k) := by
  induction key generalizing m with
  | nil => rfl
  | cons k ks ih =>
    rw [List.length_cons] at hlen
    rw [List.forall_mem_cons] at hkey
    obtain ⟨hk, hks⟩ := hkey
    simp only [keywrsFrom, List.map_cons, List.mapIdx_cons]
    rw [encode_keywr_ofNat (by omega) hk, ih (by omega) hks]
    simp [Nat.add_assoc, Nat.add_comm 1]

/-- LOADKEY's words: the writes from index 0 on, then the length (R72). -/
theorem map_encode_loadKeyCommands {key : List Nat} (hlen : key.length ≤ 256) (hkey : ∀ k ∈ key, k ≤ 255) :
    (loadKeyCommands key).map encode =
      key.mapIdx (fun m k => BitVec.ofNat 32 (0x10000000 + (m <<< 16) + k)) ++
        [BitVec.ofNat 32 (0x20000000 + (key.length <<< 16))] := by
  rw [loadKeyCommands, List.map_append, map_encode_keywrsFrom (by omega) hkey, List.map_singleton,
    encode_keylen_ofNat (by omega)]
  simp

/-- INITIALIZE is LOADKEY and then INIT, and spells no word where LOADKEY spells none (R72). -/
theorem assemble_initkey (key : List Nat) :
    assemble (.initkey key) = (assemble (.loadkey key)).map (· ++ [0x30000000]) := by
  have hwf : (Asm.initkey key).wellFormed = (Asm.loadkey key).wellFormed := rfl
  have hwords : (Asm.initkey key).commands.map encode = (Asm.loadkey key).commands.map encode ++ [0x30000000] :=
    List.map_append
  unfold assemble
  rw [hwf, hwords]
  split <;> rfl

/-- Settles O8, from the words of LOADKEY (`map_encode_loadKeyCommands`) and of each APPLY. -/
theorem pseudoInstructionsExpand : Obligations.PseudoInstructionsExpand := by
  unfold Obligations.PseudoInstructionsExpand
  refine ⟨fun key hkey => ⟨?_, assemble_initkey key⟩, fun buf hbuf => ?_, by decide⟩
  · exact assemble_eq_ite (by simpa [Asm.wellFormed] using fun _ => hkey) fun hlen => map_encode_loadKeyCommands hlen hkey
  · refine (assemble_eq_ite (p := True) (by simpa [Asm.wellFormed] using hbuf) fun _ => ?_).trans (if_pos trivial)
    rw [Asm.commands, List.map_map]
    exact List.map_congr_left fun b hb => encode_apply_ofNat (hbuf b hb)

end Sys2Proof
end

section
/-! Commands issued one after another on the port (30_encoding.md R60, R144), and what LOADKEY's commands leave
(R72, 70_reset_and_hazards.md R143). -/

namespace Sys2Proof.Machine

/-- A command issued first runs on the state, and the others follow on the state it leaves. -/
theorem issue_cons {s t : State} {i : Instr} (h : ExecTo s i t) (is : List Instr) : issue (i :: is) s = issue is t := by
  have hwf : i.wellFormed Config.cmdV1 = true := by cases i <;> rfl
  have hstep : step { s with inputs := (i :: is).map (fun k => HostInput.command (encode k)) ++ s.inputs } =
      .next { t with inputs := is.map (fun k => HostInput.command (encode k)) ++ s.inputs } :=
    (stepWith_of_command rfl).trans
      ((runWord_of_command (decode_encode hwf) _).trans (exec_next_iff.2 (h.withInputs _)))
  unfold issue
  rw [h.inputs_eq]
  exact run_succ_of_next hstep _

@[simp] theorem issue_nil (s : State) : issue [] s = .next s := rfl

/-- The state that the writes of LOADKEY leave, from index m on. -/
def State.keysWritten (s : State) (m : Nat) : List Nat → State
  | [] => s
  | k :: ks => ((s.writeKey (BitVec.ofNat 8 m) (BitVec.ofNat 8 k)).respond .ok 0 0).keysWritten (m + 1) ks

theorem issue_keywrsFrom (s : State) (m : Nat) (key : List Nat) (is : List Instr) :
    issue (keywrsFrom m key ++ is) s = issue is (s.keysWritten m key) := by
  induction key generalizing s m with
  | nil => rfl
  | cons k ks ih => exact (issue_cons (.keywr _ _) _).trans (ih _ _)

/-- The writes of LOADKEY leave everything but KEY and the responses. -/
theorem State.keysWritten_frame (s : State) (m : Nat) (key : List Nat) :
    SameCipher s (s.keysWritten m key) ∧ (s.keysWritten m key).KEYLEN = s.KEYLEN ∧
      (s.keysWritten m key).READY = s.READY ∧ (s.keysWritten m key).inputs = s.inputs := by
  induction key generalizing s m with
  | nil => exact ⟨⟨rfl, rfl, rfl⟩, rfl, rfl, rfl⟩
  | cons k ks ih => exact ih _ _

/-- One OK per write. -/
theorem State.keysWritten_responses (s : State) (m : Nat) (key : List Nat) :
    (s.keysWritten m key).responses = s.responses ++ List.replicate key.length (responseWord .ok s.READY 0 0) := by
  induction key generalizing s m with
  | nil => simp [State.keysWritten]
  | cons k ks ih => simp [State.keysWritten, ih, List.replicate_succ]

/-- The writes from index m on leave every byte below m and every byte at or above the end. -/
theorem State.keyAt_keysWritten_outside (s : State) {m : Nat} {key : List Nat} {a : Byte}
    (hlen : m + key.length ≤ 256) (ha : a.toNat < m ∨ m + key.length ≤ a.toNat) :
    (s.keysWritten m key).keyAt a = s.keyAt a := by
  induction key generalizing s m with
  | nil => rfl
  | cons k ks ih =>
    rw [List.length_cons] at hlen ha
    have hne : a ≠ BitVec.ofNat 8 m := by
      rintro rfl
      rw [BitVec.toNat_ofNat] at ha
      omega
    exact (ih _ (by omega) (by omega)).trans (State.keyAt_writeKey_ne s _ hne)

/-- The writes from index m on leave the n-th byte at index m + n. -/
theorem State.keyAt_keysWritten (s : State) {m n : Nat} {key : List Nat} (hlen : m + key.length ≤ 256)
    (hn : n < key.length) :
    (s.keysWritten m key).keyAt (BitVec.ofNat 8 (m + n)) = some (BitVec.ofNat 8 key[n]) := by
  induction key generalizing s m n with
  | nil => simp at hn
  | cons k ks ih =>
    rw [List.length_cons] at hlen hn
    cases n with
    | zero =>
      have hbelow : (BitVec.ofNat 8 m).toNat < m + 1 := by rw [BitVec.toNat_ofNat]; omega
      exact (State.keyAt_keysWritten_outside _ (by omega) (.inl hbelow)).trans (State.keyAt_writeKey_same s _ _)
    | succ n =>
      have h := ih ((s.writeKey (BitVec.ofNat 8 m) (BitVec.ofNat 8 k)).respond .ok 0 0) (m := m + 1) (n := n)
        (by omega) (by omega)
      rwa [Nat.add_assoc, Nat.add_comm 1] at h

/-- The state that LOADKEY's commands leave. -/
def State.afterLoadKey (s : State) (key : List Nat) : State :=
  ((s.keysWritten 0 key).writeKeylen (BitVec.ofNat 9 key.length)).respond .ok 0 0

theorem issue_loadKeyCommands_append (s : State) (key : List Nat) (is : List Instr) :
    issue (loadKeyCommands key ++ is) s = issue is (s.afterLoadKey key) := by
  rw [loadKeyCommands, List.append_assoc, issue_keywrsFrom]
  exact issue_cons (.keylen _) is

/-- Settles O45: LOADKEY's commands leave `State.afterLoadKey`, whose fields are those of the writes and the length. -/
theorem loadKeyFillsKeyBuffer : Obligations.LoadKeyFillsKeyBuffer := by
  unfold Obligations.LoadKeyFillsKeyBuffer
  intro s key hlen _
  have hissue : issue (Asm.commands (.loadkey key)) s = .next (s.afterLoadKey key) := by
    rw [Asm.commands, ← List.append_nil (loadKeyCommands key), issue_loadKeyCommands_append, issue_nil]
  obtain ⟨hcipher, _, hready, _⟩ := s.keysWritten_frame 0 key
  refine ⟨_, hissue, fun m hm => ?_, fun a ha => ?_, ?_, hcipher, hready, ?_⟩
  · have h := s.keyAt_keysWritten (m := 0) (by omega) hm
    rwa [Nat.zero_add] at h
  · exact s.keyAt_keysWritten_outside (by omega) (.inr (by omega))
  · simp [State.afterLoadKey]; omega
  · simp [State.afterLoadKey, State.keysWritten_responses, hready, List.replicate_succ', responseWord_eq, codeBits]

end Sys2Proof.Machine
end

section
/-! The text of an assembly line (30_encoding.md R71, R72): the number a text writes is the one read, and a line of a
mnemonic and number texts is the mnemonic's line of these numbers. -/

namespace Sys2Proof.Machine

/-! ## Numbers -/

theorem exists_digitText_of_mem {base : Nat} {digits : List Nat} {chars : List Char}
    (h : List.Forall₂ (DigitText base) digits chars) : ∀ ch ∈ chars, ∃ d, DigitText base d ch := by
  induction h with
  | nil => simp
  | cons hd _ ih => exact List.forall_mem_cons.2 ⟨⟨_, hd⟩, ih⟩

/-- Digits read after acc are read as if acc stood in front of them, as the most significant digit. -/
theorem digitsValue_of_digitText {base : Nat} {digits : List Nat} {chars : List Char} (hb : base ≤ 16)
    (h : List.Forall₂ (DigitText base) digits chars) (acc : Nat) :
    digitsValue base acc chars = some (Nat.ofDigits base (digits.reverse ++ [acc])) := by
  induction h generalizing acc with
  | nil => simp [digitsValue]
  | cons hd _ ih =>
    simp only [digitsValue, (digitValue_of_digitText hb hd).1, ih, List.reverse_cons, List.append_assoc,
      Nat.ofDigits_append]
    simp [Nat.ofDigits_cons, Nat.add_comm, Nat.mul_comm]

/-- A text without x is read in decimal. -/
theorem numberValue_of_no_x {text : List Char} (hne : text ≠ []) (hx : ∀ ch ∈ text, ch ≠ 'x') :
    numberValue text = digitsValue 10 0 text := by
  unfold numberValue
  split
  · exact absurd rfl hne
  · simp at hx
  · simp at hx
  · rfl

theorem numberValue_hex {hex : List Char} (hne : hex ≠ []) :
    numberValue ('0' :: 'x' :: hex) = digitsValue 16 0 hex := by
  cases hex with
  | nil => exact absurd rfl hne
  | cons => rfl

theorem chars_ne_nil {base : Nat} {digits : List Nat} {chars : List Char} (hne : digits ≠ [])
    (h : List.Forall₂ (DigitText base) digits chars) : chars ≠ [] := by
  rintro rfl
  exact hne (List.forall₂_nil_right_iff.1 h)

/-- A text that writes a number is read as that number. -/
theorem NumberText.numberValue {n : Nat} {text : List Char} (h : NumberText n text) : numberValue text = some n := by
  obtain ⟨digits, chars, hne, ⟨hd, rfl, rfl⟩ | ⟨hd, rfl, rfl⟩⟩ := h
  · have hx : ∀ ch ∈ text, ch ≠ 'x' := fun ch hc =>
      have ⟨_, hdigit⟩ := exists_digitText_of_mem hd ch hc
      (digitValue_of_digitText (by omega) hdigit).2.2.2
    rw [numberValue_of_no_x (chars_ne_nil hne hd) hx, digitsValue_of_digitText (by omega) hd]
    simp [Nat.ofDigits_append]
  · rw [numberValue_hex (chars_ne_nil hne hd), digitsValue_of_digitText (by omega) hd]
    simp [Nat.ofDigits_append]

/-- A text that writes a number is not empty, and has no blank and no comma. -/
theorem NumberText.plain {n : Nat} {text : List Char} (h : NumberText n text) :
    text ≠ [] ∧ (∀ ch ∈ text, ch ≠ ' ') ∧ ∀ ch ∈ text, ch ≠ ',' := by
  have plain {base : Nat} {digits : List Nat} {chars : List Char} (hb : base ≤ 16)
      (hd : List.Forall₂ (DigitText base) digits chars) : ∀ ch ∈ chars, ch ≠ ' ' ∧ ch ≠ ',' := fun ch hc =>
    have ⟨_, hdigit⟩ := exists_digitText_of_mem hd ch hc
    have ⟨_, hspace, hcomma, _⟩ := digitValue_of_digitText hb hdigit
    ⟨hspace, hcomma⟩
  obtain ⟨digits, chars, hne, ⟨hd, rfl, rfl⟩ | ⟨hd, rfl, rfl⟩⟩ := h
  · have hp := plain (by omega) hd
    exact ⟨chars_ne_nil hne hd, fun ch hc => (hp ch hc).1, fun ch hc => (hp ch hc).2⟩
  · have hp := plain (by omega) hd
    exact ⟨by simp, by simpa using fun ch hc => (hp ch hc).1, by simpa using fun ch hc => (hp ch hc).2⟩

/-- The library's digits of a number write it. -/
theorem exists_digitText_toDigits {base : Nat} (hb : 1 < base) (n : Nat) :
    ∃ digits, digits ≠ [] ∧ List.Forall₂ (DigitText base) digits (Nat.toDigits base n) ∧
      n = Nat.ofDigits base digits.reverse := by
  induction n using Nat.strong_induction_on with
  | _ n ih =>
    by_cases hn : n < base
    · refine ⟨[n], by simp, ?_, by simp⟩
      rw [Nat.toDigits_of_lt_base hn]
      exact .cons ⟨hn, .inl rfl⟩ .nil
    · obtain ⟨digits, _, hd, hval⟩ := ih (n / base) (Nat.div_lt_self (by omega) hb)
      refine ⟨digits ++ [n % base], by simp, ?_, ?_⟩
      · rw [Nat.toDigits_of_base_le hb (by omega)]
        exact List.rel_append hd (.cons ⟨Nat.mod_lt _ (by omega), .inl rfl⟩ .nil)
      · rw [List.reverse_append, List.reverse_singleton, List.singleton_append, Nat.ofDigits_cons, ← hval]
        exact (Nat.mod_add_div n base).symm

/-- Every number can be written in either base. -/
theorem numberText_toDigits (n : Nat) :
    NumberText n (Nat.toDigits 10 n) ∧ NumberText n ('0' :: 'x' :: Nat.toDigits 16 n) := by
  obtain ⟨dec, hdec, hd, hdval⟩ := exists_digitText_toDigits (base := 10) (by omega) n
  obtain ⟨hex, hhex, hx, hxval⟩ := exists_digitText_toDigits (base := 16) (by omega) n
  exact ⟨⟨dec, _, hdec, .inl ⟨hd, hdval, rfl⟩⟩, ⟨hex, _, hhex, .inr ⟨hx, hxval, rfl⟩⟩⟩

/-! ## Operands -/

@[simp] theorem operandText_nil : operandText [] = [] := rfl

@[simp] theorem operandText_singleton (text : List Char) : operandText [text] = text := List.intercalate_singleton

@[simp] theorem operandText_cons_cons (text next : List Char) (texts : List (List Char)) :
    operandText (text :: next :: texts) = text ++ ',' :: ' ' :: operandText (next :: texts) := by
  simp [operandText, List.intercalate_cons_cons]

/-- A blank stands before each operand, and the commas part them. -/
theorem splitCommas_operandText (text : List Char) (texts : List (List Char))
    (h : ∀ t ∈ text :: texts, ∀ ch ∈ t, ch ≠ ',') :
    splitCommas (' ' :: operandText (text :: texts)) = (text :: texts).map (' ' :: ·) := by
  have hfirst : ∀ ch ∈ ' ' :: text, ch ≠ ',' := by simpa using h text (by simp)
  induction texts generalizing text with
  | nil => exact (congrArg _ (by simp)).trans (splitCommas_of_no_comma hfirst)
  | cons next texts ih =>
    have hrest := List.forall_mem_cons.1 h
    have hsplit := splitCommas_append_comma (' ' :: operandText (next :: texts)) hfirst
    rw [ih next hrest.2 (by simpa using h next (by simp))] at hsplit
    simpa using hsplit

theorem numberValues_of_numberText {ns : List Nat} {texts : List (List Char)}
    (h : List.Forall₂ NumberText ns texts) : numberValues (texts.map (' ' :: ·)) = some ns := by
  induction h with
  | nil => rfl
  | cons hn _ ih =>
    obtain ⟨_, hspace, _⟩ := hn.plain
    simp [numberValues, trimSpaces_space_cons, trimSpaces_of_no_space hspace, hn.numberValue, ih]

/-- A text with a character that is no blank is not empty without the blanks at its ends. -/
theorem trimSpaces_ne_nil {text : List Char} {ch : Char} (hc : ch ∈ text) (hs : ch ≠ ' ') : trimSpaces text ≠ [] := by
  intro h
  have hdrop : ∀ c ∈ text.dropWhile (· == ' '), c = ' ' := by simpa [trimSpaces] using h
  have hmem := hc
  rw [← List.takeWhile_append_dropWhile (p := (· == ' ')) (l := text), List.mem_append] at hmem
  rcases hmem with ht | hd
  · exact hs (by simpa using List.mem_takeWhile_imp ht)
  · exact hs (hdrop ch hd)

theorem plain_of_mem {ns : List Nat} {texts : List (List Char)} (h : List.Forall₂ NumberText ns texts) :
    ∀ text ∈ texts, text ≠ [] ∧ (∀ ch ∈ text, ch ≠ ' ') ∧ ∀ ch ∈ text, ch ≠ ',' := by
  induction h with
  | nil => simp
  | cons hn _ ih => exact List.forall_mem_cons.2 ⟨hn.plain, ih⟩

theorem mem_operandText {ch : Char} {text : List Char} (hc : ch ∈ text) (texts : List (List Char)) :
    ch ∈ operandText (text :: texts) := by
  cases texts <;> simp [hc]

theorem operandValues_of_numberText {ns : List Nat} {text : List Char} {texts : List (List Char)}
    (h : List.Forall₂ NumberText ns (text :: texts)) :
    operandValues (' ' :: operandText (text :: texts)) = some ns := by
  have hplain : ∀ t ∈ text :: texts, t ≠ [] ∧ (∀ ch ∈ t, ch ≠ ' ') ∧ ∀ ch ∈ t, ch ≠ ',' := plain_of_mem h
  obtain ⟨hne, hspace, _⟩ := hplain text (by simp)
  obtain ⟨ch, hc⟩ := List.exists_mem_of_ne_nil _ hne
  have hmem : ch ∈ ' ' :: operandText (text :: texts) :=
    List.mem_cons_of_mem _ (mem_operandText hc texts)
  rw [operandValues, if_neg (trimSpaces_ne_nil hmem (hspace ch hc)),
    splitCommas_operandText text texts fun t ht => (hplain t ht).2.2]
  exact numberValues_of_numberText h

/-! ## Lines -/

/-- The operands end in the last one. -/
theorem exists_operandText_eq_append (text : List Char) (texts : List (List Char)) :
    ∃ front last, last ∈ text :: texts ∧ operandText (text :: texts) = front ++ last := by
  induction texts generalizing text with
  | nil => exact ⟨[], text, by simp⟩
  | cons next texts ih =>
    obtain ⟨front, last, hmem, h⟩ := ih next
    exact ⟨text ++ ',' :: ' ' :: front, last, List.mem_cons_of_mem _ hmem, by simp [h]⟩

/-- A line whose blanks at the ends are gone: the mnemonic, and what stands behind the first blank. -/
theorem parseLine_of_trimSpaces {line mnemonic rest : List Char} {ns : List Nat}
    (hline : trimSpaces line = mnemonic ++ rest) (hm : ∀ ch ∈ mnemonic, ch ≠ ' ')
    (hrest : rest.takeWhile (· != ' ') = []) (hns : operandValues rest = some ns) :
    parseLine line = lineOf mnemonic ns := by
  have hm' : ∀ ch ∈ mnemonic, (ch != ' ') = true := by simpa using hm
  have hdrop : rest.dropWhile (· != ' ') = rest := by
    simpa [hrest] using List.takeWhile_append_dropWhile (p := (· != ' ')) (l := rest)
  unfold parseLine
  simp only [hline, List.dropWhile_append_of_pos hm', List.takeWhile_append_of_pos hm', hdrop, hrest, hns,
    List.append_nil]

/-- A blank behind a text without blanks goes. -/
theorem trimSpaces_append_space {text : List Char} (h : ∀ ch ∈ text, ch ≠ ' ') :
    trimSpaces (text ++ [' ']) = text := by
  cases text with
  | nil => rfl
  | cons first rest =>
    have hfirst : (first == ' ') = false := beq_eq_false_iff_ne.2 (h first (by simp))
    have hback : (first :: rest).reverse.dropWhile (· == ' ') = (first :: rest).reverse :=
      dropWhile_space fun ch hc => h ch (List.mem_reverse.1 hc)
    rw [trimSpaces, List.cons_append, List.dropWhile_cons_of_neg (by simp [hfirst]), ← List.cons_append,
      List.reverse_append, List.reverse_singleton, List.singleton_append, List.dropWhile_cons_of_pos (by simp), hback,
      List.reverse_reverse]

/-- A mnemonic, one blank and number texts are the mnemonic's line of these numbers; with no operand the blank is
passed over (log 14). -/
theorem parseLine_operandText {mnemonic : List Char} (hne : mnemonic ≠ []) (hm : ∀ ch ∈ mnemonic, ch ≠ ' ')
    {ns : List Nat} {texts : List (List Char)} (h : List.Forall₂ NumberText ns texts) :
    parseLine (mnemonic ++ ' ' :: operandText texts) = lineOf mnemonic ns := by
  cases texts with
  | nil =>
    cases h
    have htrim := (trimSpaces_append_space hm).trans (List.append_nil mnemonic).symm
    exact parseLine_of_trimSpaces htrim hm rfl rfl
  | cons text texts =>
    obtain ⟨front, last, hmem, hlast⟩ := exists_operandText_eq_append text texts
    obtain ⟨hlastne, hspace, _⟩ := plain_of_mem h last hmem
    obtain ⟨first, others, rfl⟩ := List.exists_cons_of_ne_nil hne
    have htrim := trimSpaces_of_ends (others ++ ' ' :: front) (hm first (by simp)) hlastne hspace
    refine parseLine_of_trimSpaces (rest := ' ' :: operandText (text :: texts)) ?_ hm rfl (operandValues_of_numberText h)
    simpa [hlast] using htrim

/-- Such a line spells what the mnemonic with these numbers spells. -/
theorem assembleText_operandText {head mnemonic : List Char} (hhead : head = mnemonic ++ [' '])
    (hm : mnemonic ≠ [] ∧ ∀ ch ∈ mnemonic, ch ≠ ' ') {ns : List Nat} {texts : List (List Char)}
    (h : List.Forall₂ NumberText ns texts) {a : Asm} (hline : lineOf mnemonic ns = some a) :
    assembleText (head ++ operandText texts) = assemble a := by
  obtain ⟨hne, hspace⟩ := hm
  rw [assembleText, hhead, List.append_assoc, List.singleton_append, parseLine_operandText hne hspace h, hline]

/-- Settles O9: a number's text by `NumberText.numberValue`, a line's by `assembleText_operandText`. -/
theorem assemblyTextSpellsWords : Obligations.AssemblyTextSpellsWords := by
  unfold Obligations.AssemblyTextSpellsWords
  refine ⟨numberText_toDigits, fun n text h => h.numberValue, fun idx data idxText dataText hi hd => ?_,
    fun n text h => ?_, fun ns texts h => ?_, by decide⟩
  · exact assembleText_operandText (mnemonic := "KEYWR".toList) (by decide) (by simp) (.cons hi (.cons hd .nil)) rfl
  · have hone : List.Forall₂ NumberText [n] [text] := .cons h .nil
    exact ⟨assembleText_operandText (mnemonic := "KEYLEN".toList) (by decide) (by simp) hone rfl,
      assembleText_operandText (mnemonic := "APPLY".toList) (by decide) (by simp) hone rfl,
      assembleText_operandText (mnemonic := "SRD".toList) (by decide) (by simp) hone rfl⟩
  · exact ⟨assembleText_operandText (mnemonic := "LOADKEY".toList) (by decide) (by simp) h rfl,
      assembleText_operandText (mnemonic := "INITIALIZE".toList) (by decide) (by simp) h rfl,
      assembleText_operandText (mnemonic := "APPLYBUF".toList) (by decide) (by simp) h rfl⟩

end Sys2Proof.Machine
end

section
/-! The KSA of 41_ksa_init.md R91 as the document's steps relate one array to the next, and INIT on loaded key bytes:
what it leaves, and that it reads no KEY byte at or above KEYLEN. -/

namespace Sys2Proof.Machine

/-- The array and the accumulator before iteration n of the KSA. -/
def ksaUpTo (key : Memory) (L : Nat) (S : SArray) (n : Nat) : SArray × Byte :=
  (List.range n).foldl (ksaRound key L) (ksaIdentity S, 0)

theorem ksaUpTo_succ (key : Memory) (L : Nat) (S : SArray) (n : Nat) :
    ksaUpTo key L S (n + 1) = ksaRound key L (ksaUpTo key L S n) n := by
  simp [ksaUpTo, List.range_succ]

theorem ksa_eq_ksaUpTo (key : Memory) (L : Nat) (S : SArray) : ksa key L S = ksaUpTo key L S 256 := ksa_eq key L S

/-- One round is one iteration of step 3, with the key byte the memory holds. -/
theorem ksaIteration_ksaRound {key : Memory} {L n : Nat} {v : Byte} (h : key.read (n % L) = some v)
    (c : SArray × Byte) :
    KsaIteration v (BitVec.ofNat 8 n) (sRead c.1) c.2 (sRead (ksaRound key L c n).1) (ksaRound key L c n).2 := by
  have hj : (ksaRound key L c n).2 = c.2 + sRead c.1 (BitVec.ofNat 8 n) + v := by
    rw [← ksaKeyByte_of_read h]; rfl
  exact ⟨hj, sRead_sSwap_left _ _ _, sRead_sSwap_right _ _ _, fun _ => sRead_sSwap_ne _⟩

/-- The arrays and accumulators before each iteration lead from the identity to what the KSA leaves. -/
theorem ksa_isKsaResult {mem : Memory} {L : Nat} {key : Nat → Byte} (hL : 0 < L)
    (h : ∀ m, m < L → mem.read m = some (key m)) (S : SArray) : IsKsaResult L key (ksa mem L S).1 := by
  refine ⟨fun n => sRead (ksaUpTo mem L S n).1, fun n => (ksaUpTo mem L S n).2, fun a => sRead_ksaIdentity S a, rfl,
    fun n _ => ?_, fun a => by rw [ksa_eq_ksaUpTo]⟩
  simp only [ksaUpTo_succ]
  exact ksaIteration_ksaRound (h _ (Nat.mod_lt n hL)) _

theorem KeyLoaded.isKsaResult {s : State} {key : Nat → Byte} (h : KeyLoaded s key) :
    IsKsaResult s.KEYLEN.toNat key s.initialized.S := by
  have ⟨h5, _, _⟩ := h
  exact ksa_isKsaResult (by omega) (fun _ => h.read) s.S

/-- The loaded bytes are those KEY holds. -/
theorem KeyLoaded.eq_of_keyAt {s : State} {key : Nat → Byte} {a v : Byte} (h : KeyLoaded s key)
    (ha : a.toNat < s.KEYLEN.toNat) (hv : s.keyAt a = some v) : key a.toNat = v :=
  Option.some.inj ((h.read ha).symm.trans hv)

theorem keyWritten_congr {key key' : Memory} {L : Nat} (h : ∀ m, m < L → key'.read m = key.read m) :
    keyWritten key' L = keyWritten key L :=
  Bool.eq_iff_iff.2 (by rw [keyWritten_iff, keyWritten_iff]; exact forall₂_congr fun m hm => by rw [h m hm])

/-- INIT in a state with the same KEYLEN, the same bytes below it and the same cipher state goes on alike (R94). -/
theorem ExecTo.init_congr {s t u : State} (h : ExecTo s .init u) (hlen : t.KEYLEN = s.KEYLEN)
    (hcipher : SameCipher s t) (hkey : ∀ m, m < s.KEYLEN.toNat → t.KEY.read m = s.KEY.read m) :
    ∃ v, ExecTo t .init v ∧ SameCipher u v := by
  cases h with
  | initRejects hl => exact ⟨_, .initRejects (hlen ▸ hl), hcipher⟩
  | initSchedules hl hw =>
    have ⟨h5, _⟩ := (legalKeyLength_iff _).1 hl
    refine ⟨_, .initSchedules (hlen ▸ hl) ?_, ?_, rfl, rfl⟩
    · rw [hlen, keyWritten_congr hkey, hw]
    · have hksa := ksa_congr hkey (by omega) t.S s.S
      simp [hlen, hksa]

end Sys2Proof.Machine
end

section
/-! Key loading (40_key_loading.md R80 to R82): the words of NOP, KEYWR and KEYLEN and their ILLEGAL neighbours, and
what the three commands do. -/

namespace Sys2Proof

theorem encode_keywr (idx data : Byte) :
    encode (.keywr idx data) = BitVec.ofNat 32 (0x10000000 + (idx.toNat <<< 16) + data.toNat) := by
  have hi := idx.isLt
  have hd := data.isLt
  rw [← encode_keywr_ofNat (by omega) (by omega), BitVec.ofNat_toNat, BitVec.ofNat_toNat]
  rfl

theorem encode_keylen (len : KeyLength) :
    encode (.keylen len) = BitVec.ofNat 32 (0x20000000 + (len.toNat <<< 16)) := by
  have hl := len.isLt
  rw [← encode_keylen_ofNat (by omega), BitVec.ofNat_toNat]
  rfl

/-! The conditions of R67 on a row's fields, each enough for ILLEGAL. -/

section
variable {c : Config} {cw : Word}

theorem IllegalBits.of_reserved (h : rsvAField cw ≠ 0 ∨ rsvBField cw ≠ 0) : IllegalBits c cw :=
  .inr (.inr (h.imp id .inl))

theorem IllegalBits.of_arg (h : argField cw ≠ 0)
    (hop : let op := (opField cw).toNat; op = 0 ∨ op = 3 ∨ op = 4 ∨ op = 6 ∨ op = 7) : IllegalBits c cw :=
  .inr (.inr (.inr (.inr (.inl ⟨hop, h⟩))))

theorem IllegalBits.of_argTop (h : argTopField cw ≠ 0)
    (hop : let op := (opField cw).toNat; op = 1 ∨ op = 5) : IllegalBits c cw :=
  .inr (.inr (.inr (.inr (.inr (.inl ⟨hop, h⟩)))))

theorem IllegalBits.of_data (h : dataField cw ≠ 0)
    (hop : let op := (opField cw).toNat; op = 0 ∨ op = 2 ∨ op = 3 ∨ op = 5 ∨ op = 6 ∨ op = 7) : IllegalBits c cw :=
  .inr (.inr (.inr (.inr (.inr (.inr ⟨hop, h⟩)))))

end

end Sys2Proof

namespace Sys2Proof.Machine

theorem runsAs_encode {c : Config} {i : Instr} (h : i.wellFormed c = true) : RunsAs c (encode i) i :=
  runWord_of_command (decode_encode h)

theorem answersIllegal_of_illegalBits {c : Config} {cw : Word} (h : IllegalBits c cw) : AnswersIllegal c cw := by
  obtain ⟨_, hd⟩ := (exists_decode_eq_illegal_iff c cw).2 h
  exact answersIllegal_of_illegal hd

/-- A reserved bit makes a word of any row ILLEGAL (R67). -/
theorem answersIllegal_of_reserved (c : Config) {cw : Word} (h : HasReservedBits cw) : AnswersIllegal c cw :=
  answersIllegal_of_illegalBits (.of_reserved h)

/-- A row without operands has one word (R65): any other word of its OP has a bit that must be 0. -/
theorem answersIllegal_of_ne_commandWord (c : Config) {cw : Word}
    (hop : (opField cw).toNat = 0 ∨ (opField cw).toNat = 3 ∨ (opField cw).toNat = 6 ∨ (opField cw).toNat = 7)
    (hne : cw ≠ commandWord (opField cw) 0 0) : AnswersIllegal c cw := by
  by_cases hres : HasReservedBits cw
  · exact answersIllegal_of_reserved c hres
  · obtain ⟨hA, hB⟩ : rsvAField cw = 0 ∧ rsvBField cw = 0 := by
      simpa [HasReservedBits, rsvAField, rsvBField] using hres
    have hcw := commandWord_of_fields hA hB
    by_cases harg : argField cw = 0
    · by_cases hdata : dataField cw = 0
      · rw [harg, hdata] at hcw
        exact absurd hcw.symm hne
      · exact answersIllegal_of_illegalBits (.of_data hdata (by omega))
    · exact answersIllegal_of_illegalBits (.of_arg harg (by omega))

/-- APPLY in two states with the same cipher state and READY = 1: the same byte, and the same cipher state after. -/
theorem apply_of_sameCipher {s t : State} (hcipher : SameCipher s t) (hready : t.READY = s.READY)
    (hr : s.READY = true) (d : Byte) :
    ∃ u v, exec (.apply d) s = .next u ∧ exec (.apply d) t = .next v ∧ newBytes s u = newBytes t v ∧
      SameCipher u v := by
  have hu := ExecTo.applyReady d hr
  have hv := ExecTo.applyReady d (hready.trans hr)
  obtain ⟨hbyte, hnext⟩ := nextByte_congr hcipher
  refine ⟨_, _, exec_next_iff.2 hu, exec_next_iff.2 hv, ?_, hnext⟩
  rw [hu.newBytes_apply hr, hv.newBytes_apply (hready.trans hr), hbyte]

/-- OK without result bytes, in the claims' terms. -/
theorem respond_ok_responses (s : State) :
    (s.respond .ok 0 0).responses = s.responses ++ [answerWord 0 s.READY 0 0] :=
  congrArg State.responses (respond_eq_answered s .ok 0 0)

/-- Settles O14: OP 0 has no operand, and NOP responds and nothing else. -/
theorem nopAnswersOk : Obligations.NopAnswersOk := by
  unfold Obligations.NopAnswersOk
  refine ⟨fun c => runsAs_encode (i := .nop) rfl, fun c cw hop hne => ?_,
    fun s => congrArg _ (respond_eq_answered s .ok 0 0)⟩
  have hop : opField cw = 0 := hop
  exact answersIllegal_of_ne_commandWord c (.inl (congrArg BitVec.toNat hop)) (hop ▸ hne)

/-- A write at or above KEYLEN makes no difference to INIT (R81). -/
theorem init_writeKey_unused {s u : State} {idx data : Byte} (hidx : s.KEYLEN.toNat ≤ idx.toNat)
    (h : exec .init s = .next u) :
    ∃ v, exec .init ((s.writeKey idx data).respond .ok 0 0) = .next v ∧ SameCipher u v := by
  have hkey (m : Nat) (hm : m < s.KEYLEN.toNat) : (s.KEY.write idx.toNat data).read m = s.KEY.read m :=
    Memory.read_write_ne _ _ (by omega)
  have hu : ExecTo s .init u := exec_next_iff.1 h
  obtain ⟨v, hv, hsame⟩ := hu.init_congr (t := (s.writeKey idx data).respond .ok 0 0) rfl ⟨rfl, rfl, rfl⟩ hkey
  exact ⟨v, exec_next_iff.2 hv, hsame⟩

/-- Settles O15: the state after is `writeKey`'s with one response more; INIT reads the bytes it holds
(`KeyLoaded.isKsaResult`), and only those below KEYLEN (`init_writeKey_unused`). -/
theorem keywrWritesOneKeyByte : Obligations.KeywrWritesOneKeyByte := by
  unfold Obligations.KeywrWritesOneKeyByte
  refine ⟨fun c idx data => encode_keywr idx data ▸ runsAs_encode rfl, fun c cw hop h => ?_, fun idx data s => ?_⟩
  · have hop : (opField cw).toNat = 1 := congrArg BitVec.toNat hop
    rcases h with hres | htop
    · exact answersIllegal_of_reserved c hres
    · exact answersIllegal_of_illegalBits (.of_argTop htop (.inl hop))
  · have hat : ((s.writeKey idx data).respond .ok 0 0).keyAt idx = some data := State.keyAt_writeKey_same s idx data
    refine ⟨(s.writeKey idx data).respond .ok 0 0, rfl, hat, fun b hb => State.keyAt_writeKey_ne s data hb,
      ⟨rfl, rfl, rfl⟩, rfl, rfl, rfl, respond_ok_responses (s.writeKey idx data), fun data' u hu => ?_,
      apply_of_sameCipher ⟨rfl, rfl, rfl⟩ rfl, fun key hk => ?_, fun hidx u hu => init_writeKey_unused hidx hu⟩
    · rw [← next_inj hu]
      exact State.keyAt_writeKey_same _ idx data'
    · exact ⟨fun hlt => hk.eq_of_keyAt hlt hat, _, hk.execInit, hk.isKsaResult⟩

/-- Settles O16: the state after is `writeKeylen`'s with one response more. -/
theorem keylenSetsKeyLength : Obligations.KeylenSetsKeyLength := by
  unfold Obligations.KeylenSetsKeyLength
  refine ⟨fun c len => encode_keylen len ▸ runsAs_encode rfl, fun c cw hop h => ?_, fun len s => ?_⟩
  · have hop : (opField cw).toNat = 2 := congrArg BitVec.toNat hop
    rcases h with hres | hdata
    · exact answersIllegal_of_reserved c hres
    · exact answersIllegal_of_illegalBits (.of_data hdata (.inr (.inl hop)))
  · exact ⟨(s.writeKeylen len).respond .ok 0 0, rfl, rfl, fun _ => rfl, ⟨rfl, rfl, rfl⟩, rfl, rfl,
      respond_ok_responses (s.writeKeylen len), apply_of_sameCipher ⟨rfl, rfl, rfl⟩ rfl⟩

end Sys2Proof.Machine
end

section
/-! INIT (41_ksa_init.md R90 to R94): its two stops, the array the document's steps determine, and the keystream that
follows from the cipher state it leaves. -/

namespace Sys2Proof.Machine

/-! ## The two stops -/

theorem legalKeyLength_eq_false_iff (len : KeyLength) :
    legalKeyLength len = false ↔ len.toNat < 5 ∨ 256 < len.toNat := by
  rw [← Bool.not_eq_true, legalKeyLength_iff]
  omega

/-- INVALID_KEY_LENGTH, in the claims' terms (R92). -/
theorem exec_init_invalidKeyLength {s : State} (h : s.KEYLEN.toNat < 5 ∨ 256 < s.KEYLEN.toNat) :
    exec .init s = .next (s.answered 1 0 0) :=
  (execInit_illegalLength ((legalKeyLength_eq_false_iff _).2 h)).trans
    (congrArg _ (raise_eq_answered s .invalidKeyLength))

/-- KEY[m] as the command's one-byte index reads it. -/
theorem keyAt_ofNat (s : State) {m : Nat} (hm : m < 256) : s.keyAt (BitVec.ofNat 8 m) = s.KEY.read m := by
  rw [State.keyAt, BitVec.toNat_ofNat, Nat.mod_eq_of_lt hm]

/-- Where a legal KEYLEN stands above an unwritten byte, the loop of R90 finds it. -/
theorem keyWritten_eq_false {s : State} {m : Nat} (h256 : s.KEYLEN.toNat ≤ 256) (hm : m < s.KEYLEN.toNat)
    (hnone : s.keyAt (BitVec.ofNat 8 m) = none) : keyWritten s.KEY s.KEYLEN.toNat = false := by
  rw [keyAt_ofNat s (by omega)] at hnone
  refine Bool.eq_false_iff.2 fun hw => ?_
  have hsome := (keyWritten_iff _ _).1 hw m hm
  simp [hnone] at hsome

/-- Settles O17: an illegal length by `exec_init_invalidKeyLength`; with a legal one, what goes on is the schedule. -/
theorem initRejectsIllegalLength : Obligations.InitRejectsIllegalLength := by
  unfold Obligations.InitRejectsIllegalLength
  refine ⟨fun s => exec_init_invalidKeyLength, fun s t h5 h256 h => ?_⟩
  obtain ⟨_, rfl⟩ := (exec_next_iff.1 h).init_of_legal ((legalKeyLength_iff _).2 ⟨h5, h256⟩)
  exact respond_ok_responses s.initialized

/-- Settles O18: OP 3 has no operand; the two stops by `exec_init_invalidKeyLength` and `keyWritten_eq_false`; a loaded
key is scheduled as the document's steps say (`KeyLoaded.isKsaResult`), and again by a second INIT (`execInit_twice`). -/
theorem initRunsKsaAndClearsCursors : Obligations.InitRunsKsaAndClearsCursors := by
  unfold Obligations.InitRunsKsaAndClearsCursors
  refine ⟨fun c => runsAs_encode (i := .init) rfl, fun c cw hop hne => ?_, fun s => exec_init_invalidKeyLength,
    fun s h5 h256 ⟨m, hm, hnone⟩ => ?_, fun s key h => ?_⟩
  · have hop : opField cw = 3 := hop
    exact answersIllegal_of_ne_commandWord c (.inr (.inl (congrArg BitVec.toNat hop))) (hop ▸ hne)
  · exact execInit_unwritten ((legalKeyLength_iff _).2 ⟨h5, h256⟩) (keyWritten_eq_false h256 hm hnone)
  · have hinit : exec .init s = .next (s.initialized.respond .ok 0 0) := h.execInit
    obtain ⟨hagain, hsame⟩ := execInit_twice (exec_next_iff.1 hinit) h.legalKeyLength
    exact ⟨_, hinit, h.isKsaResult, rfl, rfl, rfl, fun _ => rfl, rfl, rfl, respond_ok_responses s.initialized,
      _, hagain, hsame⟩

/-! ## The document's steps determine the array (R91) -/

/-- One iteration of step 3 has one result: the new accumulator is a sum, and each entry is one of the two swapped or
stays. -/
theorem KsaIteration.unique {kb n j j' k' : Byte} {A A' B' : Byte → Byte} (hA : KsaIteration kb n A j A' j')
    (hB : KsaIteration kb n A j B' k') : A' = B' ∧ j' = k' := by
  obtain ⟨rfl, hAn, hAj, hA⟩ := hA
  obtain ⟨rfl, hBn, hBj, hB⟩ := hB
  refine ⟨funext fun a => ?_, rfl⟩
  by_cases hn : a = n
  · rw [hn, hAn, hBn]
  · by_cases hj : a = j + A n + kb
    · rw [hj, hAj, hBj]
    · rw [hA a hn hj, hB a hn hj]

/-- Two sequences of iterations with the same key bytes and the same start stay equal. -/
theorem ksaIterations_unique {kb : Nat → Byte} {A B : Nat → Byte → Byte} {J K : Nat → Byte} {N : Nat}
    (h0 : A 0 = B 0 ∧ J 0 = K 0)
    (hA : ∀ n, n < N → KsaIteration (kb n) (BitVec.ofNat 8 n) (A n) (J n) (A (n + 1)) (J (n + 1)))
    (hB : ∀ n, n < N → KsaIteration (kb n) (BitVec.ofNat 8 n) (B n) (K n) (B (n + 1)) (K (n + 1))) :
    ∀ n, n ≤ N → A n = B n ∧ J n = K n := by
  intro n
  induction n with
  | zero => exact fun _ => h0
  | succ n ih =>
    intro hn
    obtain ⟨hAB, hJK⟩ := ih (by omega)
    have hAn := hA n hn
    rw [hAB, hJK] at hAn
    exact hAn.unique (hB n hn)

/-- The steps read only the key bytes below L. -/
theorem IsKsaResult.congr_key {L : Nat} {key key' : Nat → Byte} {S : SArray} (hL : 0 < L)
    (h : ∀ m, m < L → key m = key' m) (hS : IsKsaResult L key S) : IsKsaResult L key' S := by
  obtain ⟨A, J, hA, hJ, hstep, hres⟩ := hS
  exact ⟨A, J, hA, hJ, fun n hn => h _ (Nat.mod_lt n hL) ▸ hstep n hn, hres⟩

/-- Settles O19: both results come of the same key bytes (`IsKsaResult.congr_key`), so the two sequences of iterations
agree (`ksaIterations_unique`), to the last array. -/
theorem ksaResultIsUnique : Obligations.KsaResultIsUnique := by
  unfold Obligations.KsaResultIsUnique
  intro L key key' S T hL hkey hS hT
  obtain ⟨A, J, hA, hJ, hAstep, hAres⟩ := hS.congr_key hL hkey
  obtain ⟨B, K, hB, hK, hBstep, hBres⟩ := hT
  have h0 : A 0 = B 0 ∧ J 0 = K 0 := ⟨funext fun a => (hA a).trans (hB a).symm, hJ.trans hK.symm⟩
  obtain ⟨hAB, _⟩ := ksaIterations_unique h0 hAstep hBstep 256 (Nat.le_refl _)
  exact sArray_ext fun a => by rw [hAres, hBres, hAB]

/-! ## A buffer of APPLY commands (R101, R102) -/

/-- The next n keystream bytes: the state steps by nextByte alone. -/
def keystream (s : State) : Nat → List Byte
  | 0 => []
  | n + 1 => (nextByte s).2 :: keystream (nextByte s).1 n

/-- The keystream depends on S, i and j alone. -/
theorem keystream_congr {s t : State} (h : SameCipher s t) (n : Nat) : keystream t n = keystream s n := by
  induction n generalizing s t with
  | zero => rfl
  | succ n ih =>
    obtain ⟨hbyte, hnext⟩ := nextByte_congr h
    rw [keystream, keystream, hbyte, ih hnext]

/-- The state after one APPLY with a cipher state (R101). -/
def State.afterApply (s : State) (d : Byte) : State := (nextByte s).1.respond .ok (d ^^^ (nextByte s).2) 0

/-- A buffer of APPLY commands goes on with READY = 1, one command after another. -/
theorem issue_apply {s : State} (hr : s.READY = true) (buf : List Byte) :
    issue (buf.map .apply) s = .next (buf.foldl State.afterApply s) := by
  induction buf generalizing s with
  | nil => exact issue_nil s
  | cons d buf ih => exact (issue_cons (.applyReady d hr) _).trans (ih hr)

/-- One response per byte of the buffer: that byte XOR its keystream byte. -/
theorem responses_foldl_afterApply (s : State) (buf : List Byte) :
    (buf.foldl State.afterApply s).responses =
      s.responses ++ List.zipWith (fun d k => responseWord .ok s.READY (d ^^^ k) 0) buf (keystream s buf.length) := by
  induction buf generalizing s with
  | nil => simp
  | cons d buf ih =>
    have hks : keystream (s.afterApply d) buf.length = keystream (nextByte s).1 buf.length :=
      keystream_congr (s := (nextByte s).1) (t := s.afterApply d) ⟨rfl, rfl, rfl⟩ _
    rw [List.foldl_cons, ih, hks]
    simp [State.afterApply, keystream]

theorem newBytes_foldl_afterApply (s : State) (buf : List Byte) :
    newBytes s (buf.foldl State.afterApply s) = List.zipWith (· ^^^ ·) buf (keystream s buf.length) := by
  rw [newBytes, responses_foldl_afterApply, List.drop_left, List.map_zipWith]
  simp

/-- INIT on the same loaded key leaves the same cipher state, whatever S, i and j were (R94). -/
theorem sameCipher_initialized {s t : State} {key : Nat → Byte} (hs : KeyLoaded s key) (ht : KeyLoaded t key)
    (hlen : s.KEYLEN = t.KEYLEN) : SameCipher s.initialized t.initialized := by
  have ⟨h5, _, _⟩ := hs
  have hread (m : Nat) (hm : m < s.KEYLEN.toNat) : t.KEY.read m = s.KEY.read m := by
    rw [hs.read hm, ht.read (hlen ▸ hm)]
  have hksa := ksa_congr hread (by omega) t.S s.S
  exact ⟨by simp [← hlen, hksa], rfl, rfl⟩

/-- Settles O22: the same cipher state after INIT (`sameCipher_initialized`), and so the same keystream
(`keystream_congr`), which is what a buffer of zeros shows. -/
theorem initDependsOnKeyAlone : Obligations.InitDependsOnKeyAlone := by
  unfold Obligations.InitDependsOnKeyAlone
  intro s t key hs ht hlen
  have hcipher : SameCipher (s.initialized.respond .ok 0 0) (t.initialized.respond .ok 0 0) :=
    sameCipher_initialized hs ht hlen
  refine ⟨_, _, hs.execInit, ht.execInit, hcipher, fun n => ?_⟩
  rw [← List.map_replicate]
  refine ⟨_, _, issue_apply rfl _, issue_apply rfl _, ?_⟩
  rw [newBytes_foldl_afterApply, newBytes_foldl_afterApply, keystream_congr hcipher]

end Sys2Proof.Machine
end

section
/-! APPLY and the PRGA (42_prga_apply.md R100 to R104): one nextByte entry by entry, what a buffer of APPLY commands
changes and leaves, and that the same keystream a second time undoes the first. -/

namespace Sys2Proof

theorem encode_apply (data : Byte) : encode (.apply data) = BitVec.ofNat 32 (0x40000000 + data.toNat) := by
  have hd := data.isLt
  rw [← encode_apply_ofNat (by omega), BitVec.ofNat_toNat]
  rfl

end Sys2Proof

namespace Sys2Proof.Machine

/-! ## One step (R100, R101) -/

/-- The entry at the new i is the old one at the new j. -/
theorem nextByte_sAt_i (s : State) : (nextByte s).1.sAt (nextByte s).1.i = s.sAt (nextByte s).1.j :=
  sRead_sSwap_left s.S _ _

/-- The entry at the new j is the old one at the new i. -/
theorem nextByte_sAt_j (s : State) : (nextByte s).1.sAt (nextByte s).1.j = s.sAt (nextByte s).1.i :=
  sRead_sSwap_right s.S _ _

theorem nextByte_sAt_ne {s : State} {a : Byte} (hi : a ≠ (nextByte s).1.i) (hj : a ≠ (nextByte s).1.j) :
    (nextByte s).1.sAt a = s.sAt a :=
  sRead_sSwap_ne s.S hi hj

/-- Equal cursors swap an entry with itself, and the keystream byte doubles that entry. -/
theorem nextByte_of_equal_cursors {s : State} (h : (nextByte s).1.i = (nextByte s).1.j) :
    (nextByte s).1.S = s.S ∧ (nextByte s).2 = s.sAt (2 * s.sAt (nextByte s).1.i) := by
  have hS : (nextByte s).1.S = s.S := by rw [nextByte_S, ← h, sSwap_self]
  have hdouble (x : Byte) : x + x = 2 * x := BitVec.two_mul.symm
  refine ⟨hS, ?_⟩
  rw [nextByte_byte, nextByte_sAt_j, nextByte_sAt_i, ← h, hdouble]
  exact congrArg (sRead · _) hS

/-- APPLY with a cipher state, in the claims' terms. -/
theorem exec_apply_ready {s : State} (hr : s.READY = true) (d : Byte) :
    exec (.apply d) s = .next ((nextByte s).1.answered 0 (d ^^^ (nextByte s).2) 0) :=
  (execApply_ready hr d).trans (congrArg _ (respond_eq_answered _ .ok _ 0))

/-- Settles O23: the state after is `nextByte`'s with one response more, so each clause is one of the entries of the
swap; KEY and KEYLEN stand beside all of it. -/
theorem applyStepsThePrga : Obligations.ApplyStepsThePrga := by
  unfold Obligations.ApplyStepsThePrga
  intro s d hr
  have hanswer : ((nextByte s).1.answered 0 (d ^^^ (nextByte s).2) 0).responses =
      s.responses ++ [answerWord 0 true (d ^^^ (nextByte s).2) 0] := by
    simp [State.answered, hr]
  refine ⟨_, exec_apply_ready hr d, rfl, rfl, nextByte_sAt_i s, nextByte_sAt_j s, fun _ => nextByte_sAt_ne,
    hanswer, fun hij => ?_, fun _ => rfl, rfl, hr, rfl, fun key len => ?_⟩
  · obtain ⟨hS, hbyte⟩ := nextByte_of_equal_cursors hij
    exact ⟨hS, hbyte ▸ hanswer⟩
  · exact exec_apply_ready (s := { s with KEY := key, KEYLEN := len }) hr d

/-- Settles O24: OP 4 has one operand, and `exec_apply_ready` names the keystream byte and the next cipher state, in
which the data byte does not occur. -/
theorem applyCombinesDataByte : Obligations.ApplyCombinesDataByte := by
  unfold Obligations.ApplyCombinesDataByte
  refine ⟨fun c d => encode_apply d ▸ runsAs_encode rfl, fun c cw hop h => ?_, fun s d hr => ?_, fun s hr => ?_⟩
  · have hop : (opField cw).toNat = 4 := congrArg BitVec.toNat hop
    rcases h with hres | harg
    · exact answersIllegal_of_reserved c hres
    · exact answersIllegal_of_illegalBits (.of_arg harg (.inr (.inr (.inl hop))))
  · exact ((exec_notReady hr).1 d).trans (congrArg _ (raise_eq_answered s .notReady))
  · have hzero : 0x00 ^^^ (nextByte s).2 = (nextByte s).2 := BitVec.zero_xor
    have hones : 0xFF ^^^ (nextByte s).2 = ~~~ (nextByte s).2 := BitVec.allOnes_xor
    refine ⟨(nextByte s).2, (nextByte s).1.S, (nextByte s).1.i, (nextByte s).1.j, exec_apply_ready hr,
      hzero ▸ exec_apply_ready hr 0x00, hones ▸ exec_apply_ready hr 0xFF, rfl, fun h => ?_, rfl, rfl, rfl⟩
    rw [nextByte_i, h]
    rfl

/-! ## A buffer of APPLY commands: its length, its bytes and the block after it (R102) -/

@[simp] theorem length_keystream (s : State) (n : Nat) : (keystream s n).length = n := by
  induction n generalizing s with
  | zero => rfl
  | succ n ih => rw [keystream, List.length_cons, ih]

/-- As many bytes as the buffer has. -/
@[simp] theorem length_newBytes_foldl_afterApply (s : State) (buf : List Byte) :
    (newBytes s (buf.foldl State.afterApply s)).length = buf.length := by
  simp [newBytes_foldl_afterApply]

/-- The data bytes do not reach S, i and j: buffers of one length leave the same cipher state. -/
theorem sameCipher_foldl_afterApply {s t : State} {a b : List Byte} (h : SameCipher s t) (hlen : a.length = b.length) :
    SameCipher (a.foldl State.afterApply s) (b.foldl State.afterApply t) := by
  induction a generalizing s t b with
  | nil =>
    rw [List.eq_nil_of_length_eq_zero hlen.symm]
    exact h
  | cons d a ih =>
    cases b with
    | nil => cases hlen
    | cons e b =>
      have hnext : SameCipher (s.afterApply d) (t.afterApply e) := (nextByte_congr h).2
      exact ih (b := b) hnext (Nat.succ.inj hlen)

/-- A buffer leaves everything but the cipher state and the responses. -/
theorem foldl_afterApply_frame (s : State) (buf : List Byte) :
    (buf.foldl State.afterApply s).KEY = s.KEY ∧ (buf.foldl State.afterApply s).KEYLEN = s.KEYLEN ∧
      (buf.foldl State.afterApply s).READY = s.READY := by
  induction buf generalizing s with
  | nil => exact ⟨rfl, rfl, rfl⟩
  | cons d buf ih => exact ih (s.afterApply d)

/-- Buffers of one length leave the same block. -/
theorem sameBlock_foldl_afterApply (s : State) {a b : List Byte} (hlen : a.length = b.length) :
    SameBlock (a.foldl State.afterApply s) (b.foldl State.afterApply s) := by
  obtain ⟨haKey, haLen, haReady⟩ := foldl_afterApply_frame s a
  obtain ⟨hbKey, hbLen, hbReady⟩ := foldl_afterApply_frame s b
  exact ⟨sameCipher_foldl_afterApply ⟨rfl, rfl, rfl⟩ hlen, hbKey.trans haKey.symm, hbLen.trans haLen.symm,
    hbReady.trans haReady.symm⟩

/-- A buffer of zeros shows the keystream itself. -/
theorem newBytes_foldl_zeros (s : State) (n : Nat) :
    newBytes s ((List.replicate n 0).foldl State.afterApply s) = keystream s n := by
  have hxor (k : Byte) : 0 ^^^ k = k := BitVec.zero_xor
  rw [newBytes_foldl_afterApply, List.length_replicate]
  induction n generalizing s with
  | zero => rfl
  | succ n ih => rw [keystream, List.replicate_succ, List.zipWith_cons_cons, hxor, ih]

/-- Every command but an APPLY and an INIT that answers OK leaves the cipher state. -/
theorem ExecTo.sameCipher {s t : State} {i : Instr} (h : ExecTo s i t) (happly : ∀ d, i ≠ .apply d)
    (hinit : i = .init → t.responses ≠ s.responses ++ [answerWord 0 true 0 0]) : SameCipher s t := by
  cases h with
  | initSchedules => exact absurd (respond_ok_responses s.initialized) (hinit rfl)
  | applyReady d => exact absurd rfl (happly d)
  | _ => exact ⟨rfl, rfl, rfl⟩

/-- Settles O25: the output is the buffer XOR the keystream (`newBytes_foldl_afterApply`), which a buffer of zeros
shows, and the block after depends on the length alone. -/
theorem applyBufferPreservesLength : Obligations.ApplyBufferPreservesLength := by
  unfold Obligations.ApplyBufferPreservesLength
  refine ⟨fun s buf hr => ?_, issue_nil, fun i s t h happly hinit => (exec_next_iff.1 h).sameCipher happly hinit⟩
  rw [← List.map_replicate]
  refine ⟨_, _, issue_apply hr buf, issue_apply hr _, length_newBytes_foldl_afterApply s buf,
    sameBlock_foldl_afterApply s (by simp), ?_⟩
  rw [newBytes_foldl_zeros, newBytes_foldl_afterApply]

/-! ## Buffers in sequence (R103, R130) -/

/-- i counts the APPLY commands, modulo 256. -/
theorem foldl_afterApply_i (s : State) (buf : List Byte) :
    (buf.foldl State.afterApply s).i = s.i + BitVec.ofNat 8 buf.length := by
  induction buf generalizing s with
  | nil => simp
  | cons d buf ih =>
    rw [List.foldl_cons, ih, List.length_cons, Nat.add_comm, BitVec.ofNat_add, ← BitVec.add_assoc]
    rfl

/-- The bytes answered over two stretches are those of the first, then those of the second. -/
theorem newBytes_append {s t u : State} (hst : s.responses <+: t.responses) (htu : t.responses <+: u.responses) :
    newBytes s u = newBytes s t ++ newBytes t u := by
  obtain ⟨x, hx⟩ := hst
  obtain ⟨y, hy⟩ := htu
  simp [newBytes, ← hx, ← hy]

/-- A buffer adds responses and takes none away. -/
theorem responses_foldl_afterApply_extends (s : State) (buf : List Byte) :
    s.responses <+: (buf.foldl State.afterApply s).responses :=
  ⟨_, (responses_foldl_afterApply s buf).symm⟩

/-- Settles O26: INIT clears i and each APPLY adds 1; the concatenation runs the second buffer on the state the first
leaves. -/
theorem keystreamContinuesAndIsCounted : Obligations.KeystreamContinuesAndIsCounted := by
  unfold Obligations.KeystreamContinuesAndIsCounted
  refine ⟨fun s key buf h => ?_, fun s a b hr => ?_⟩
  · have hinit : ExecTo s .init (s.initialized.respond .ok 0 0) := .initSchedules h.legalKeyLength h.keyWritten
    refine ⟨_, (issue_cons hinit _).trans (issue_apply rfl buf), ?_⟩
    rw [foldl_afterApply_i]
    exact BitVec.zero_add _
  · obtain ⟨_, _, hready⟩ := foldl_afterApply_frame s a
    refine ⟨_, _, _, issue_apply hr a, issue_apply (hready.trans hr) b, issue_apply hr (a ++ b), ?_, ?_⟩ <;>
      rw [List.foldl_append]
    · exact sameBlock_foldl_afterApply _ rfl
    · exact newBytes_append (responses_foldl_afterApply_extends s a) (responses_foldl_afterApply_extends _ b)

/-! ## The second pass undoes the first (R104) -/

/-- XOR with the same bytes twice gives the bytes back. -/
theorem zipWith_xor_zipWith_xor {buf ks : List Byte} (h : buf.length = ks.length) :
    List.zipWith (· ^^^ ·) (List.zipWith (· ^^^ ·) buf ks) ks = buf := by
  induction buf generalizing ks with
  | nil => rfl
  | cons d buf ih =>
    cases ks with
    | nil => cases h
    | cons k ks => simp [ih (Nat.succ.inj h)]

/-- A second block in step, given the answers of the first, answers the first one's input. -/
theorem newBytes_second_pass {s s' : State} (h : SameCipher s s') (buf : List Byte) :
    newBytes s' ((newBytes s (buf.foldl State.afterApply s)).foldl State.afterApply s') = buf := by
  rw [newBytes_foldl_afterApply s', length_newBytes_foldl_afterApply, keystream_congr h, newBytes_foldl_afterApply]
  exact zipWith_xor_zipWith_xor (by simp)

/-- A buffer leaves a loaded key loaded. -/
theorem KeyLoaded.foldl_afterApply {s : State} {key : Nat → Byte} (h : KeyLoaded s key) (buf : List Byte) :
    KeyLoaded (buf.foldl State.afterApply s) key := by
  obtain ⟨hkey, hlen, _⟩ := foldl_afterApply_frame s buf
  simpa only [KeyLoaded, State.keyAt, hkey, hlen] using h

/-- Settles O27: two blocks in step by `newBytes_second_pass`; and an INIT on the key that the first pass left alone
puts the block back in step with itself (`sameCipher_initialized`). -/
theorem applyIsSelfInverse : Obligations.ApplyIsSelfInverse := by
  unfold Obligations.ApplyIsSelfInverse
  refine ⟨fun s s' buf hr hr' hcipher => ?_, fun s key buf h => ?_⟩
  · exact ⟨_, _, issue_apply hr buf, issue_apply hr' _, newBytes_second_pass hcipher buf,
      sameCipher_foldl_afterApply hcipher (by simp)⟩
  · have hinit : KeyLoaded (s.initialized.respond .ok 0 0) key := h
    have hpass := hinit.foldl_afterApply buf
    obtain ⟨_, hlen, _⟩ := foldl_afterApply_frame (s.initialized.respond .ok 0 0) buf
    have hcipher : SameCipher (s.initialized.respond .ok 0 0)
        ((buf.foldl State.afterApply (s.initialized.respond .ok 0 0)).initialized.respond .ok 0 0) :=
      sameCipher_initialized h hpass hlen.symm
    exact ⟨_, _, _, _, h.execInit, issue_apply rfl buf, hpass.execInit, issue_apply rfl _,
      newBytes_second_pass hcipher buf⟩

end Sys2Proof.Machine
end

section
/-! Inspection (43_inspection.md R110 to R113): what SRD, IJRD and RDSTAT answer, and what a build without the first two
hides. -/

namespace Sys2Proof

theorem encode_srd (idx : Byte) : encode (.srd idx) = BitVec.ofNat 32 (0x50000000 + (idx.toNat <<< 16)) := by
  have hi := idx.isLt
  rw [← encode_srd_ofNat (by omega), BitVec.ofNat_toNat]
  rfl

/-- P_INSPECT plays a part in the rows of SRD and IJRD alone (R113). -/
theorem decode_congr_config (c d : Config) {cw : Word} (h5 : opField cw ≠ 5) (h6 : opField cw ≠ 6) :
    decode c cw = decode d cw := by
  unfold decode
  by_cases hr : rsvAField cw ≠ 0 ∨ rsvBField cw ≠ 0
  · rw [if_pos hr, if_pos hr]
  · rw [if_neg hr, if_neg hr]
    split
    case h_6 hop => exact absurd (BitVec.eq_of_toNat_eq hop) h5
    case h_7 hop => exact absurd (BitVec.eq_of_toNat_eq hop) h6
    all_goals rfl

theorem IllegalBits.of_inspectionAbsent {c : Config} {cw : Word} (hp : c.pInspect = false)
    (hop : opField cw = 5 ∨ opField cw = 6) : IllegalBits c cw :=
  .inr (.inl ⟨hp, hop.imp (congrArg BitVec.toNat) (congrArg BitVec.toNat)⟩)

end Sys2Proof

namespace Sys2Proof.Machine

/-! ## A build without the inspection commands (R113) -/

/-- Of the commands a build without SRD and IJRD has, APPLY alone answers from S, i or j: any other goes on from every
cipher state alike. -/
theorem ExecTo.responses_withCipher {c : Config} {s t : State} {i : Instr} (h : ExecTo s i t)
    (hp : c.pInspect = false) (hwf : i.wellFormed c = true) (happly : ∀ d, i ≠ .apply d) (S : SArray) (ci cj : Byte) :
    ∃ u, ExecTo (s.withCipher S ci cj) i u ∧ u.responses = t.responses := by
  have habsent : c.pInspect ≠ true := Bool.eq_false_iff.1 hp
  cases h with
  | nop => exact ⟨_, .nop, rfl⟩
  | keywr a v => exact ⟨_, .keywr a v, rfl⟩
  | keylen len => exact ⟨_, .keylen len, rfl⟩
  | initRejects hl => exact ⟨_, .initRejects hl, rfl⟩
  | initSchedules hl hw => exact ⟨_, .initSchedules hl hw, rfl⟩
  | applyNotReady d | applyReady d => exact absurd rfl (happly d)
  | srdNotReady | srdReady | ijrdNotReady | ijrdReady => exact absurd hwf habsent
  | rdstat => exact ⟨_, .rdstat, rfl⟩

/-- Settles O6: the decoder asks for P_INSPECT in the two rows alone (`decode_congr_config`), and a word of another OP
than APPLY's is ILLEGAL or runs as a command that S, i and j do not reach (`ExecTo.responses_withCipher`). -/
theorem secureBuildHidesCipherState : Obligations.SecureBuildHidesCipherState := by
  unfold Obligations.SecureBuildHidesCipherState
  refine ⟨rfl, fun c hp cw => ⟨fun hop => answersIllegal_of_illegalBits (.of_inspectionAbsent hp hop),
    fun h5 h6 => decode_congr_config c Config.cmdV1 h5 h6, fun hop s s' S ci cj h => ?_⟩⟩
  rcases runWord_next_cases h with ⟨_, hill, rfl⟩ | ⟨i, hd, he⟩
  · exact ⟨_, runWord_of_illegal hill _, rfl⟩
  · obtain ⟨rfl, hwf⟩ := encode_of_decode hd
    have happly (d : Byte) : i ≠ .apply d := fun hi => hop (hi ▸ opField_commandWord 4 0 d)
    obtain ⟨u, hu, hresp⟩ := he.responses_withCipher hp hwf happly S ci cj
    exact ⟨u, (runWord_of_command hd _).trans (exec_next_iff.2 hu), hresp⟩

/-! ## SRD (R110) -/

theorem exec_srd_ready {s : State} (hr : s.READY = true) (idx : Byte) :
    exec (.srd idx) s = .next (s.answered 0 (s.sAt idx) 0) :=
  (execSrd_ready hr idx).trans (congrArg _ (respond_eq_answered s .ok _ 0))

/-- An OK answer shows its D0: two bytes are not the same answer. -/
theorem answered_ok_injective (s : State) : Function.Injective fun d0 : Byte => s.answered 0 d0 0 := by
  intro v w h
  have hrespond : s.respond .ok v 0 = s.respond .ok w 0 := by
    rw [respond_eq_answered, respond_eq_answered]
    exact h
  have hword : responseWord .ok s.READY v 0 = responseWord .ok s.READY w 0 := by
    simpa using congrArg State.responses hrespond
  simpa using congrArg answerD0 hword

/-- SRD answers v on exactly the indices where S holds v. -/
theorem exec_srd_eq_answered_iff {s : State} (hr : s.READY = true) (idx v : Byte) :
    exec (.srd idx) s = .next (s.answered 0 v 0) ↔ s.sAt idx = v := by
  rw [exec_srd_ready hr]
  exact ⟨fun h => answered_ok_injective s (next_inj h), fun h => by rw [h]⟩

/-- Settles O28: the row has one operand and needs P_INSPECT; an answer is the entry's value
(`exec_srd_eq_answered_iff`), and the invariant has S a permutation. -/
theorem srdReadsOneEntry : Obligations.SrdReadsOneEntry := by
  unfold Obligations.SrdReadsOneEntry
  refine ⟨fun c idx hp => encode_srd idx ▸ runsAs_encode hp, fun c cw hop h => ?_, fun s idx hr => ?_,
    fun s idx hr => exec_srd_ready hr idx, fun s hinv hr v => ?_⟩
  · have hopField : opField cw = 5 := hop
    have hopNat : (opField cw).toNat = 5 := congrArg BitVec.toNat hop
    rcases h with hp | hres | htop | hdata
    · exact answersIllegal_of_illegalBits (.of_inspectionAbsent hp (.inl hopField))
    · exact answersIllegal_of_reserved c hres
    · exact answersIllegal_of_illegalBits (.of_argTop htop (.inr hopNat))
    · exact answersIllegal_of_illegalBits (.of_data hdata (by omega))
  · exact ((exec_notReady hr).2.1 idx).trans (congrArg _ (raise_eq_answered s .notReady))
  · simp only [exec_srd_eq_answered_iff hr]
    exact hinv.ready_permutation hr v

/-! ## IJRD (R111) -/

theorem exec_ijrd_ready {s : State} (hr : s.READY = true) : exec .ijrd s = .next (s.answered 0 s.i s.j) :=
  (execIjrd_ready hr).trans (congrArg _ (respond_eq_answered s .ok _ _))

/-- Settles O29: the row has no operand and needs P_INSPECT; an INIT with a legal length that goes on leaves
`State.initialized`, whose cursors are 0. -/
theorem ijrdReadsBothCursors : Obligations.IjrdReadsBothCursors := by
  unfold Obligations.IjrdReadsBothCursors
  refine ⟨fun c hp => runsAs_encode (i := .ijrd) hp, fun c cw hop h => ?_, fun s hr => ?_,
    fun s hr => exec_ijrd_ready hr, fun s t h5 h256 h => ?_⟩
  · have hop : opField cw = 6 := hop
    rcases h with hp | hne
    · exact answersIllegal_of_illegalBits (.of_inspectionAbsent hp (.inr hop))
    · exact answersIllegal_of_ne_commandWord c (.inr (.inr (.inl (congrArg BitVec.toNat hop)))) (hop ▸ hne)
  · exact (exec_notReady hr).2.2.trans (congrArg _ (raise_eq_answered s .notReady))
  · obtain ⟨_, rfl⟩ := (exec_next_iff.1 h).init_of_legal ((legalKeyLength_iff _).2 ⟨h5, h256⟩)
    exact exec_ijrd_ready rfl

/-! ## RDSTAT (R112) -/

theorem keylenLow_eq (len : KeyLength) : keylenLow len = BitVec.ofNat 8 (len.toNat % 256) := by
  apply BitVec.eq_of_toNat_eq
  simp [keylenLow]

theorem keylenHigh_eq (len : KeyLength) : keylenHigh len = BitVec.ofNat 8 (len.toNat / 256) := by
  apply BitVec.eq_of_toNat_eq
  have hl := len.isLt
  rw [keylenHigh, BitVec.toNat_setWidth, BitVec.extractLsb'_toNat, BitVec.toNat_ofNat, Nat.shiftRight_eq_div_pow]
  omega

/-- Settles O30: the row has no operand, and the two result bytes are the number's halves. -/
theorem rdstatReadsKeyLength : Obligations.RdstatReadsKeyLength := by
  unfold Obligations.RdstatReadsKeyLength
  refine ⟨fun c => runsAs_encode (i := .rdstat) rfl, fun c cw hop hne => ?_, fun s => ?_⟩
  · have hop : opField cw = 7 := hop
    exact answersIllegal_of_ne_commandWord c (.inr (.inr (.inr (congrArg BitVec.toNat hop)))) (hop ▸ hne)
  · rw [← keylenLow_eq, ← keylenHigh_eq]
    exact congrArg _ (respond_eq_answered s .ok _ _)

end Sys2Proof.Machine
end

section
/-! Errors (60_exceptions.md R120 to R136): the one fault, the completion code of a word, and that a word with another
code than OK leaves the state behind it as if it had not been issued. -/

namespace Sys2Proof.Machine

/-! ## The model fault (R136) -/

theorem keyWritten_eq_false_iff {s : State} (h256 : s.KEYLEN.toNat ≤ 256) :
    keyWritten s.KEY s.KEYLEN.toNat = false ↔
      ∃ m : Nat, m < s.KEYLEN.toNat ∧ s.keyAt (BitVec.ofNat 8 m) = none := by
  refine ⟨fun h => ?_, fun ⟨m, hm, hnone⟩ => keyWritten_eq_false h256 hm hnone⟩
  rw [← Bool.not_eq_true, keyWritten_iff] at h
  push Not at h
  obtain ⟨m, hm, hnone⟩ := h
  exact ⟨m, hm, (keyAt_ofNat s (by omega)).trans (by simpa using hnone)⟩

/-- INIT's fault, in the claims' terms. -/
theorem exec_init_eq_fault_iff (s : State) : exec .init s = .fault .keyUnwritten ↔
    5 ≤ s.KEYLEN.toNat ∧ s.KEYLEN.toNat ≤ 256 ∧
      ∃ m : Nat, m < s.KEYLEN.toNat ∧ s.keyAt (BitVec.ofNat 8 m) = none := by
  rw [exec_fault_iff, legalKeyLength_iff]
  constructor
  · rintro ⟨_, ⟨h5, h256⟩, hw, _⟩
    exact ⟨h5, h256, (keyWritten_eq_false_iff h256).1 hw⟩
  · rintro ⟨h5, h256, hm⟩
    exact ⟨rfl, ⟨h5, h256⟩, (keyWritten_eq_false_iff h256).2 hm, rfl⟩

/-- Settles O20: INIT alone faults (`exec_fault_iff`), on the condition of `exec_init_eq_fault_iff`, and a run ends with
the first step that faults. -/
theorem initFaultsOnUnwrittenKey : Obligations.InitFaultsOnUnwrittenKey := by
  unfold Obligations.InitFaultsOnUnwrittenKey
  refine ⟨exec_init_eq_fault_iff, fun i s f h => ?_, fun s f n _ h => run_succ_of_fault h n⟩
  obtain ⟨hinit, _⟩ := exec_fault_iff.1 h
  exact hinit

/-- A word faults as its command does; an ILLEGAL word never does. -/
theorem runWord_fault_iff {c : Config} {cw : Word} {s : State} {f : Fault} : runWord c cw s = .fault f ↔
    decode c cw = .command .init ∧ legalKeyLength s.KEYLEN = true ∧ keyWritten s.KEY s.KEYLEN.toNat = false ∧
      f = .keyUnwritten := by
  cases hd : decode c cw with
  | command i => rw [runWord_of_command hd, exec_fault_iff, Decoded.command.injEq]
  | illegal why => simp [runWord_of_illegal hd]

/-! ## The code of a command and of a word (R122, R123, R125) -/

/-- The code a command ends with, where it ends (R122). -/
def completionCode (i : Instr) (s : State) : Code :=
  match i with
  | .init => if legalKeyLength s.KEYLEN then .ok else .invalidKeyLength
  | .apply _ | .srd _ | .ijrd => if s.READY then .ok else .notReady
  | .nop | .keywr _ _ | .keylen _ | .rdstat => .ok

/-- The code a word ends with, where it ends: ILLEGAL comes first (R125). -/
def wordCode (c : Config) (cw : Word) (s : State) : Code :=
  match decode c cw with
  | .command i => completionCode i s
  | .illegal _ => .illegal

theorem wordCode_of_command {c : Config} {cw : Word} {i : Instr} (h : decode c cw = .command i) (s : State) :
    wordCode c cw s = completionCode i s := by
  simp [wordCode, h]

theorem wordCode_of_illegal {c : Config} {cw : Word} {why : Illegal} (h : decode c cw = .illegal why) (s : State) :
    wordCode c cw s = .illegal := by
  simp [wordCode, h]

/-- A command that goes on answers `completionCode`. -/
theorem ExecTo.responses_completionCode {s t : State} {i : Instr} (h : ExecTo s i t) :
    ∃ d0 d1, t.responses = s.responses ++ [responseWord (completionCode i s) t.READY d0 d1] := by
  cases h with
  | nop | keywr | keylen | rdstat => exact ⟨_, _, rfl⟩
  | initRejects hl | initSchedules hl =>
    rw [completionCode, hl]
    exact ⟨_, _, rfl⟩
  | applyNotReady _ hr | applyReady _ hr | srdNotReady _ hr | srdReady _ hr | ijrdNotReady hr | ijrdReady hr =>
    rw [completionCode, hr]
    exact ⟨_, _, rfl⟩

/-- A command that ends with an error only raises it (R124). -/
theorem ExecTo.eq_raise {s t : State} {i : Instr} (h : ExecTo s i t) (hne : completionCode i s ≠ .ok) :
    t = s.raise (completionCode i s) := by
  cases h with
  | nop | keywr | keylen | rdstat => exact absurd rfl hne
  | initRejects hl => simp [completionCode, hl]
  | initSchedules hl => simp [completionCode, hl] at hne
  | applyNotReady _ hr | srdNotReady _ hr | ijrdNotReady hr => simp [completionCode, hr]
  | applyReady _ hr | srdReady _ hr | ijrdReady hr => simp [completionCode, hr] at hne

theorem runWord_responses_wordCode {c : Config} {cw : Word} {s t : State} (h : runWord c cw s = .next t) :
    ∃ d0 d1, t.responses = s.responses ++ [responseWord (wordCode c cw s) t.READY d0 d1] := by
  rcases runWord_next_cases h with ⟨_, hill, rfl⟩ | ⟨_, hd, he⟩
  · rw [wordCode_of_illegal hill]
    exact ⟨_, _, rfl⟩
  · rw [wordCode_of_command hd]
    exact he.responses_completionCode

/-- A word that ends with an error only raises it (R124). -/
theorem runWord_eq_raise {c : Config} {cw : Word} {s t : State} (h : runWord c cw s = .next t)
    (hne : wordCode c cw s ≠ .ok) : t = s.raise (wordCode c cw s) := by
  rcases runWord_next_cases h with ⟨_, hill, rfl⟩ | ⟨_, hd, he⟩
  · rw [wordCode_of_illegal hill]
  · rw [wordCode_of_command hd] at hne ⊢
    exact he.eq_raise hne

theorem response_unique {x y : Word} {rs ws : List Word} (hx : rs = ws ++ [x]) (hy : rs = ws ++ [y]) : x = y :=
  List.singleton_inj.1 (List.append_cancel_left (hx.symm.trans hy))

theorem codeBits_inj {a b : Code} : codeBits a = codeBits b ↔ a = b := by
  cases a <;> cases b <;> simp [codeBits]

/-- The CODE field of a word's response is the number of its `wordCode`. -/
theorem answerCode_eq_iff {c : Config} {cw : Word} {s t : State} {rw : Word} (h : runWord c cw s = .next t)
    (hresp : t.responses = s.responses ++ [rw]) (k : Code) : answerCode rw = codeBits k ↔ wordCode c cw s = k := by
  obtain ⟨d0, d1, hword⟩ := runWord_responses_wordCode h
  rw [response_unique hresp hword, answerCode_responseWord, codeBits_inj]

/-- A response with another CODE than 0 is that of `State.raise`, and so is the state. -/
theorem eq_raise_of_answerCode_ne {c : Config} {cw : Word} {s t : State} {rw : Word} (h : runWord c cw s = .next t)
    (hresp : t.responses = s.responses ++ [rw]) (hne : answerCode rw ≠ 0) :
    ∃ code, t = s.raise code ∧ rw = responseWord code s.READY 0 0 := by
  have herr : wordCode c cw s ≠ .ok := fun hok => hne ((answerCode_eq_iff h hresp .ok).2 hok)
  have ht := runWord_eq_raise h herr
  exact ⟨_, ht, response_unique hresp (congrArg State.responses ht)⟩

/-! ## The cause of each code -/

theorem completionCode_ne_illegal (i : Instr) (s : State) : completionCode i s ≠ .illegal := by
  cases i with
  | nop | keywr | keylen | rdstat => exact nofun
  | init => cases hl : legalKeyLength s.KEYLEN <;> simp [completionCode, hl]
  | apply | srd | ijrd => cases hr : s.READY <;> simp [completionCode, hr]

theorem completionCode_eq_notReady_iff {i : Instr} {s : State} : completionCode i s = .notReady ↔
    s.READY = false ∧ ((∃ d, i = .apply d) ∨ (∃ a, i = .srd a) ∨ i = .ijrd) := by
  cases i with
  | nop | keywr | keylen | rdstat => simp [completionCode]
  | init => cases hl : legalKeyLength s.KEYLEN <;> simp [completionCode, hl]
  | apply | srd | ijrd => cases hr : s.READY <;> simp [completionCode, hr]

theorem completionCode_eq_invalidKeyLength_iff {i : Instr} {s : State} : completionCode i s = .invalidKeyLength ↔
    i = .init ∧ (s.KEYLEN.toNat < 5 ∨ 256 < s.KEYLEN.toNat) := by
  rw [← legalKeyLength_eq_false_iff]
  cases i with
  | nop | keywr | keylen | rdstat => simp [completionCode]
  | init => cases hl : legalKeyLength s.KEYLEN <;> simp [completionCode, hl]
  | apply | srd | ijrd => cases hr : s.READY <;> simp [completionCode, hr]

theorem wordCode_eq_illegal_iff {c : Config} {cw : Word} {s : State} :
    wordCode c cw s = .illegal ↔ ∃ why, decode c cw = .illegal why := by
  cases hd : decode c cw with
  | command i => simp [wordCode_of_command hd, completionCode_ne_illegal]
  | illegal why => simp [wordCode_of_illegal hd]

theorem wordCode_eq_notReady_iff {c : Config} {cw : Word} {s : State} : wordCode c cw s = .notReady ↔
    s.READY = false ∧ ∃ i, decode c cw = .command i ∧ ((∃ d, i = .apply d) ∨ (∃ a, i = .srd a) ∨ i = .ijrd) := by
  cases hd : decode c cw with
  | command i => simp [wordCode_of_command hd, completionCode_eq_notReady_iff]
  | illegal why => simp [wordCode_of_illegal hd]

theorem wordCode_eq_invalidKeyLength_iff {c : Config} {cw : Word} {s : State} : wordCode c cw s = .invalidKeyLength ↔
    decode c cw = .command .init ∧ (s.KEYLEN.toNat < 5 ∨ 256 < s.KEYLEN.toNat) := by
  cases hd : decode c cw with
  | command i => rw [wordCode_of_command hd, completionCode_eq_invalidKeyLength_iff, Decoded.command.injEq]
  | illegal why => simp [wordCode_of_illegal hd]

/-- Settles O31: the CODE is that of `wordCode` (`answerCode_eq_iff`), which takes each value for one cause; INIT's
length check stands before the key bytes (`exec_init_invalidKeyLength`). -/
theorem eachCodeHasOneCause : Obligations.EachCodeHasOneCause := by
  unfold Obligations.EachCodeHasOneCause
  refine ⟨fun c cw s t rw h hresp => ?_, fun s hlen _ => exec_init_invalidKeyLength hlen⟩
  have hcode := answerCode_eq_iff h hresp
  refine ⟨(hcode .illegal).trans wordCode_eq_illegal_iff, (hcode .notReady).trans wordCode_eq_notReady_iff,
    (hcode .invalidKeyLength).trans wordCode_eq_invalidKeyLength_iff, fun hne => ?_⟩
  obtain ⟨code, _, rfl⟩ := eq_raise_of_answerCode_ne h hresp hne
  exact ⟨answerD0_responseWord _ _ _ _, answerD1_responseWord _ _ _ _⟩

/-! ## The command after an error (R124) -/

/-- A command does the same whatever was answered before it, and adds the same response. -/
theorem ExecTo.withResponses {s t : State} {i : Instr} (h : ExecTo s i t) :
    ∃ rw, t.responses = s.responses ++ [rw] ∧
      ∀ rs, ExecTo { s with responses := rs } i { t with responses := rs ++ [rw] } := by
  cases h with
  | nop => exact ⟨_, rfl, fun _ => .nop⟩
  | keywr a v => exact ⟨_, rfl, fun _ => .keywr a v⟩
  | keylen len => exact ⟨_, rfl, fun _ => .keylen len⟩
  | initRejects hl => exact ⟨_, rfl, fun _ => .initRejects hl⟩
  | initSchedules hl hw => exact ⟨_, rfl, fun _ => .initSchedules hl hw⟩
  | applyNotReady d hr => exact ⟨_, rfl, fun _ => .applyNotReady d hr⟩
  | applyReady d hr => exact ⟨_, rfl, fun _ => .applyReady d hr⟩
  | srdNotReady a hr => exact ⟨_, rfl, fun _ => .srdNotReady a hr⟩
  | srdReady a hr => exact ⟨_, rfl, fun _ => .srdReady a hr⟩
  | ijrdNotReady hr => exact ⟨_, rfl, fun _ => .ijrdNotReady hr⟩
  | ijrdReady hr => exact ⟨_, rfl, fun _ => .ijrdReady hr⟩
  | rdstat => exact ⟨_, rfl, fun _ => .rdstat⟩

theorem runWord_withResponses {c : Config} {cw : Word} {s t : State} {rw : Word} (h : runWord c cw s = .next t)
    (hresp : t.responses = s.responses ++ [rw]) (rs : List Word) :
    runWord c cw { s with responses := rs } = .next { t with responses := rs ++ [rw] } := by
  rcases runWord_next_cases h with ⟨_, hill, rfl⟩ | ⟨_, hd, he⟩
  · rw [response_unique hresp (State.raise_responses s .illegal)]
    exact runWord_of_illegal hill _
  · obtain ⟨_, hw, hrun⟩ := he.withResponses
    rw [response_unique hresp hw]
    exact (runWord_of_command hd _).trans (exec_next_iff.2 (hrun rs))

/-- Settles O32: a word with an error only raises it (`eq_raise_of_answerCode_ne`), which is one more response; the next
word goes on alike whatever was answered before (`runWord_withResponses`), and faults by KEY and KEYLEN alone
(`runWord_fault_iff`). -/
theorem errorsChangeNoState : Obligations.ErrorsChangeNoState := by
  unfold Obligations.ErrorsChangeNoState
  intro c cw s t rw h hresp hne
  obtain ⟨code, rfl, rfl⟩ := eq_raise_of_answerCode_ne h hresp hne
  exact ⟨⟨⟨rfl, rfl, rfl⟩, rfl, rfl, rfl⟩, rfl, answerD0_responseWord _ _ _ _, answerD1_responseWord _ _ _ _,
    answerReady_responseWord _ _ _ _,
    fun cw' u rw' hu hresp' => ⟨_, runWord_withResponses hu hresp' _, rfl, ⟨rfl, rfl, rfl⟩, rfl, rfl, rfl⟩,
    fun cw' f hf =>
      have hcause := runWord_fault_iff.1 hf
      runWord_fault_iff.2 hcause⟩

end Sys2Proof.Machine
end

section
/-! Reset and boot (70_reset_and_hazards.md R140 to R146): a reset clears the block, a key is loaded beside a running
keystream, and INITIALIZE reaches READY = 1 from every state. -/

namespace Sys2Proof.Machine

/-! ## Loading a key beside a running keystream (R146) -/

theorem SameCipher.trans {s t u : State} (hst : SameCipher s t) (htu : SameCipher t u) : SameCipher s u := by
  obtain ⟨hS, hi, hj⟩ := hst
  obtain ⟨hS', hi', hj'⟩ := htu
  exact ⟨hS'.trans hS, hi'.trans hi, hj'.trans hj⟩

/-- KEYWR and KEYLEN go on in every state and leave S, i, j and READY. -/
theorem exists_execTo_keyLoad (s : State) {i : Instr} (hi : (∃ a v, i = .keywr a v) ∨ ∃ l, i = .keylen l) :
    ∃ t, ExecTo s i t ∧ SameCipher s t ∧ t.READY = s.READY := by
  rcases hi with ⟨a, v, rfl⟩ | ⟨l, rfl⟩
  · exact ⟨_, .keywr a v, ⟨rfl, rfl, rfl⟩, rfl⟩
  · exact ⟨_, .keylen l, ⟨rfl, rfl, rfl⟩, rfl⟩

/-- A sequence of KEYWR and KEYLEN does the same as a whole. -/
theorem exists_issue_keyLoads (s : State) {loads : List Instr}
    (h : ∀ i ∈ loads, (∃ a v, i = .keywr a v) ∨ ∃ l, i = .keylen l) :
    ∃ t, issue loads s = .next t ∧ SameCipher s t ∧ t.READY = s.READY := by
  induction loads generalizing s with
  | nil => exact ⟨s, issue_nil s, ⟨rfl, rfl, rfl⟩, rfl⟩
  | cons i is ih =>
    obtain ⟨hi, his⟩ := List.forall_mem_cons.1 h
    obtain ⟨t, hexec, hcipher, hready⟩ := exists_execTo_keyLoad s hi
    obtain ⟨u, hissue, hcipher', hready'⟩ := ih t his
    exact ⟨u, (issue_cons hexec is).trans hissue, hcipher.trans hcipher', hready'.trans hready⟩

/-- Settles O38: the loads leave the cipher state and READY (`exists_issue_keyLoads`), which are all that APPLY reads
(`apply_of_sameCipher`). -/
theorem keyChangeWaitsForInit : Obligations.KeyChangeWaitsForInit := by
  unfold Obligations.KeyChangeWaitsForInit
  intro loads s d hloads hr
  obtain ⟨t, hissue, hcipher, hready⟩ := exists_issue_keyLoads s hloads
  obtain ⟨u, v, hu, hv, hbytes, hsame⟩ := apply_of_sameCipher hcipher hready hr d
  exact ⟨t, u, v, hissue, hu, hv, hbytes, hsame⟩

/-! ## The boot sequence (R143) -/

theorem State.afterLoadKey_keylen (s : State) {key : List Nat} (hlen : key.length ≤ 256) :
    (s.afterLoadKey key).KEYLEN.toNat = key.length := by
  simp [State.afterLoadKey]
  omega

/-- LOADKEY of 5 to 256 bytes meets INIT's two conditions, whatever the state was. -/
theorem State.keyLoaded_afterLoadKey (s : State) {key : List Nat} (h5 : 5 ≤ key.length) (h256 : key.length ≤ 256) :
    KeyLoaded (s.afterLoadKey key) fun m => BitVec.ofNat 8 (key.getD m 0) := by
  unfold KeyLoaded
  rw [s.afterLoadKey_keylen h256]
  refine ⟨h5, h256, fun m hm => ?_⟩
  have hat := s.keyAt_keysWritten (m := 0) (by omega) hm
  rw [Nat.zero_add, ← List.getD_eq_getElem key 0 hm] at hat
  exact hat

/-- With READY = 1 the commands that need a cipher state go on with CODE 0. -/
theorem exists_exec_answerCode_ok {s : State} (hr : s.READY = true) {i : Instr}
    (hi : (∃ d, i = .apply d) ∨ (∃ a, i = .srd a) ∨ i = .ijrd) :
    ∃ u rw, exec i s = .next u ∧ u.responses = s.responses ++ [rw] ∧ answerCode rw = 0 := by
  rcases hi with ⟨d, rfl⟩ | ⟨a, rfl⟩ | rfl
  · exact ⟨_, _, execApply_ready hr d, rfl, answerCode_responseWord .ok _ _ _⟩
  · exact ⟨_, _, execSrd_ready hr a, rfl, answerCode_responseWord .ok _ _ _⟩
  · exact ⟨_, _, execIjrd_ready hr, rfl, answerCode_responseWord .ok _ _ _⟩

/-- Settles O46: LOADKEY leaves the key loaded (`State.keyLoaded_afterLoadKey`), so INIT schedules it as the document's
steps say (`KeyLoaded.isKsaResult`) and sets READY. -/
theorem initializeReachesReady : Obligations.InitializeReachesReady := by
  unfold Obligations.InitializeReachesReady
  intro s key h5 h256 _
  have hloaded := s.keyLoaded_afterLoadKey h5 h256
  have hinit : ExecTo (s.afterLoadKey key) .init ((s.afterLoadKey key).initialized.respond .ok 0 0) :=
    .initSchedules hloaded.legalKeyLength hloaded.keyWritten
  have hissue : issue (Asm.commands (.initkey key)) s =
      .next ((s.afterLoadKey key).initialized.respond .ok 0 0) := by
    rw [Asm.commands, issue_loadKeyCommands_append, issue_cons hinit, issue_nil]
  have hksa := hloaded.isKsaResult
  rw [s.afterLoadKey_keylen h256] at hksa
  refine ⟨_, hissue, rfl, rfl, rfl, ksa_isPermutation _ _ _, hksa, ?_, fun i => exists_exec_answerCode_ok rfl⟩
  rw [respond_ok_responses, List.getLast?_concat]
  rfl

/-! ## Reset (R140, R141) -/

/-- A reset between commands and one during a command are the same step, which reads neither KEY nor KEYLEN (log 12). -/
theorem stepWith_of_resetEvent (c : Config) {s : State} {x : HostInput} {rest : List HostInput}
    (h : s.inputs = x :: rest) (hx : x = .reset ∨ ∃ cw, x = .resetDuring cw) :
    stepWith c s = .next (State.applyReset { s with inputs := rest }) := by
  rcases hx with rfl | ⟨cw, rfl⟩
  · exact stepWith_of_reset h
  · exact stepWith_of_resetDuring h

/-- Settles O43: the step is the reset event (`stepWith_of_resetEvent`), whose fields are those of the reset state and
which keeps the responses as they are. -/
theorem resetEventClearsBlock : Obligations.ResetEventClearsBlock := by
  unfold Obligations.ResetEventClearsBlock
  intro c s x rest h hx
  exact ⟨_, stepWith_of_resetEvent c h hx, rfl, rfl, fun _ => rfl, fun _ hresp =>
    List.cons_ne_nil _ _ (List.self_eq_append_right.1 hresp)⟩

end Sys2Proof.Machine
end

section
/-! The model's own choices at the port: the idle step (log 2), what waits behind a reset (log 9), and that the one fault
ends the run whatever waits (log 5). -/

namespace Sys2Proof.Machine

/-! ## Idle and reset (R134, R140) -/

/-- Settles O11: with no input, the step is the idle one (`stepWith_of_idle`). -/
theorem idleBlockKeepsState : Obligations.IdleBlockKeepsState := by
  unfold Obligations.IdleBlockKeepsState
  exact fun _ _ => stepWith_of_idle

/-- Settles O44: the step is the reset event with the reset taken off the port (`stepWith_of_resetEvent`), and the reset
event keeps both of the port's lists. -/
theorem resetEventKeepsPort : Obligations.ResetEventKeepsPort := by
  unfold Obligations.ResetEventKeepsPort
  intro c s x rest h hx
  exact ⟨_, stepWith_of_resetEvent c h hx, State.applyReset_inputs _, State.applyReset_responses _⟩

/-! ## Which step faults (R136) -/

/-- R136's condition on KEYLEN and KEY, which the inputs play no part in. -/
def State.UnwrittenKey (s : State) : Prop :=
  5 ≤ s.KEYLEN.toNat ∧ s.KEYLEN.toNat ≤ 256 ∧ ∃ m : Nat, m < s.KEYLEN.toNat ∧ s.keyAt (BitVec.ofNat 8 m) = none

/-- A word faults exactly when it spells INIT and INIT faults on the state. -/
theorem runWord_fault_iff_unwrittenKey {c : Config} {cw : Word} {s : State} {f : Fault} : runWord c cw s = .fault f ↔
    f = .keyUnwritten ∧ decode c cw = .command .init ∧ s.UnwrittenKey := by
  rw [State.UnwrittenKey, ← exec_init_eq_fault_iff, exec_fault_iff, runWord_fault_iff]
  tauto

/-- A step faults exactly when the oldest input is an INIT word that faults; idle steps and resets never do, and what
waits behind the word plays no part. -/
theorem stepWith_fault_iff {c : Config} {s : State} {f : Fault} : stepWith c s = .fault f ↔
    f = .keyUnwritten ∧ ∃ cw rest, s.inputs = .command cw :: rest ∧ decode c cw = .command .init ∧ s.UnwrittenKey := by
  constructor
  · intro h
    match hin : s.inputs with
    | [] => cases (stepWith_of_idle hin).symm.trans h
    | .command cw :: rest =>
      obtain ⟨hf, hinit, hkey⟩ := runWord_fault_iff_unwrittenKey.1 ((stepWith_of_command hin).symm.trans h)
      exact ⟨hf, cw, rest, rfl, hinit, hkey⟩
    | .reset :: _ => cases (stepWith_of_reset hin).symm.trans h
    | .resetDuring _ :: _ => cases (stepWith_of_resetDuring hin).symm.trans h
  · rintro ⟨hf, cw, rest, hin, hinit, hkey⟩
    exact (stepWith_of_command hin).trans (runWord_fault_iff_unwrittenKey.2 ⟨hf, hinit, hkey⟩)

/-- Settles O47: `stepWith_fault_iff` says which step faults, whatever waits behind the word, and a run ends with the
first step that faults (`run_succ_of_fault`). -/
theorem faultEndsRun : Obligations.FaultEndsRun := by
  unfold Obligations.FaultEndsRun
  constructor
  · intro s cw rest n hin hinit h5 h256 hm
    have hstep : step s = .fault .keyUnwritten :=
      stepWith_fault_iff.2 ⟨rfl, cw, rest, hin, hinit, h5, h256, hm⟩
    exact run_succ_of_fault hstep n
  · exact fun _ _ => stepWith_fault_iff.1

end Sys2Proof.Machine
end
